-- ==== Sys2Proof/Word.lean ====
section
/-! DEFINITION. The fixed widths of the instruction decoder core (IDC): rule R8 of spec/00_scope.md and the port
tables of rules R23 and R24 of spec/10_state.md. Every value of the core is an unsigned bit vector (rule R11), and bit 0
is the least significant bit (rule R9). -/

namespace Sys2Proof

/-- One byte of the host's input stream (rule R41). -/
abbrev Byte := BitVec 8

/-- One instruction word, the RawInstruction; its width is fixed at 16 bits (rules R8, R60). -/
abbrev Word := BitVec 16

/-- A RegisterKey: a selector's byte-frame value, `P_KEY_BITS` = 8 bits wide (rules R8, R24). -/
abbrev Key := BitVec 8

/-- A width class: 1 is word, 0 is byte (rules R24, R82). One bit, so there is no third value. -/
abbrev WidthClass := BitVec 1

/-- A register selector, 0 to 7 (rule R25). -/
abbrev Sel := BitVec 3

/-- A register identifier, the width class in bit 3 and the selector in bits 2..0 (rule R26). -/
abbrev RegId := BitVec 4

/-- A fault code as the port `fault_code` carries it (rules R23, R122). -/
abbrev FaultCode := BitVec 4

end Sys2Proof
end

