-- ==== Sys2Proof/Config.lean ====
section
/-! DEFINITION. The parameters of the model (rule R8 of spec/00_scope.md) and the values the spec leaves open
(spec/93_implementation_defined.md part 1). The two parameters a run depends on, `P_BYTE_ORDER` and `P_HOST_MODE`, are
types here and fields of State, so that every claim over all states holds for each of their values. The other open
points are opaque: nothing can be proved about the value they have. -/

namespace Sys2Proof

/-- `P_BYTE_ORDER`: how two stream bytes form a word (rules R8, R46; conflict C1 leaves both readings open). -/
inductive ByteOrder where
  /-- The first byte read is bits 15..8. The spec's default. -/
  | firstHigh
  /-- The first byte read is bits 7..0. -/
  | firstLow
deriving DecidableEq, Repr

/-- `P_HOST_MODE`: how the host treats the input's length (rules R8, R47, R48). -/
inductive HostMode where
  /-- The length is checked before any word is decoded (rule R47). -/
  | batch
  /-- Words are decoded until fewer than two bytes remain (rule R48). -/
  | stream
deriving DecidableEq, Repr, Inhabited

/-- The host mode of the machine that `State.reset` describes. The spec leaves `P_HOST_MODE` OPEN (rule R8, decision
D10), so this constant has no body. Log entry 1. -/
opaque Config.hostMode : HostMode

/-- `P_LATENCY`: cycles from input word to outputs (rules R8, R145; OPEN, decision D18). Only the registered realisation
of Machine/Realisation.lean is built from it; the reference core is combinational. Log entry 9. -/
opaque Config.latency : Nat

/-- One less than the parameter `P_EXIT_FAIL`, so that the exit status on a fatal error is nonzero and otherwise open (rule
R126, D16). DESIGN CHOICE: the parameter serves the decode faults too (log entry 13). -/
opaque Config.exitFailLessOne : Nat

/-- The exit status of a run that ends clean, which rule R53 does not give. DESIGN CHOICE: one value for every clean run
(log entry 13, unsafe for a claim that two clean runs exit alike). -/
opaque Config.exitClean : Nat

/-- The text of the report to the user on a fatal error (rule R126; U9: any value). DESIGN CHOICE: the text is a function of
the fault code alone, where U9 lets it differ with the fault's info or from run to run (log entry 13, unsafe for a claim
that two reports are equal). -/
opaque Config.reportText : FaultCode → String

/-- `P_EOL`: the line terminator of the output text (rules R8, R53; OPEN, decision D15). -/
opaque Config.eol : String

/-- Whether the last line of the output is followed by a terminator too (N8 leaves it open). DESIGN CHOICE: the same for
every run (log entry 13). -/
opaque Config.lastLineTerminated : Bool

/-- The character encoding of the output text (decision D15 leaves it open). DESIGN CHOICE: a function of the text, the same
for every run (log entry 13). -/
opaque Config.encodeText : String → List Byte

/-- What the RTU drives on `id` while `kfault` = 1: any value, not to be relied on (rule R85, U4). -/
opaque Config.idUnderFault : WidthClass → Key → RegId

/-- What the IDU drives on `src_id` while `fault` = 1 (rule R120: no value is produced; U4). -/
opaque Config.srcIdUnderFault : Word → RegId

/-- What the IDU drives on `dst_id` while `fault` = 1 (rule R120: no value is produced; U4). -/
opaque Config.dstIdUnderFault : Word → RegId

end Sys2Proof
end

