-- ==== Sys2Proof/Syntax.lean ====
section
/-! DEFINITION. The instruction set: one constructor, for the one row of spec/opcode_table.json (rules R60, R66, R107).
Beside it stand the byte-frame values of an instruction's fields, which the core's rules are written over (rule R63 of
spec/30_encoding.md). -/

namespace Sys2Proof

/-- A decoded instruction: the six fields of format `F16` at their logical widths (rules R61, R62). Every 16-bit word is
one `mov` (rule R66), so no field is dropped: `op` and `mod` are kept although they select nothing (rules R66, R67). -/
inductive Instr where
  | mov (op : BitVec 6) (d : BitVec 1) (w : BitVec 1) (mod : BitVec 2) (reg : Sel) (rm : Sel)
deriving DecidableEq, Repr

/-- The byte-frame values of the six fields: each is the 8-bit value the field has at its own place in its byte, with the
other bits 0 (rule R63). The type admits values no word has; WellFormed.lean says which a word can have. -/
structure Frames where
  opBf : BitVec 8
  dirBf : BitVec 8
  wBf : BitVec 8
  modBf : BitVec 8
  reg1Bf : Key
  reg2Bf : Key
deriving DecidableEq, Repr

/-- The byte-frame values of an instruction's fields, each written as the field beside zeros: the right-hand sides of
rule R63. -/
def Instr.frames : Instr → Frames
  | .mov op d w mod reg rm =>
    { opBf := op ++ (0#2), dirBf := (0#6) ++ d ++ (0#1), wBf := (0#7) ++ w, modBf := mod ++ (0#6)
      reg1Bf := (0#2) ++ reg ++ (0#3), reg2Bf := (0#5) ++ rm }

end Sys2Proof
end

