-- ==== Sys2Proof/WellFormed.lean ====
section
/-! DEFINITION. Which byte-frame values the decode is defined on. The instruction's own fields are exact bit vectors, so
no term of Instr is ill-formed (rule R68: no encoding is illegal or reserved); the checks are over the byte frame, whose
8-bit values can be out of range (rules R81, R102, R104). -/

namespace Sys2Proof

/-- The key set `K` of both register tables: 15 values (rule R81). -/
def keySet : List Key := [0, 1, 2, 3, 4, 5, 6, 7, 8, 16, 24, 32, 40, 48, 56]

/-- The width value selects one of the two tables (rule R102). -/
def Frames.widthOk (f : Frames) : Bool := f.wBf == 0 || f.wBf == 1

/-- The direction value is the sentinel 0b00000010 or zero (rule R104). -/
def Frames.directionOk (f : Frames) : Bool := f.dirBf == 0 || f.dirBf == 2

/-- The reg field's key is one of the tables' keys (rules R81, R85). -/
def Frames.reg1Ok (f : Frames) : Bool := keySet.contains f.reg1Bf

/-- The rm field's key is one of the tables' keys (rules R81, R85). -/
def Frames.reg2Ok (f : Frames) : Bool := keySet.contains f.reg2Bf

/-- The operation value lies in the top six bits of its byte (rule R63). -/
def Frames.operationOk (f : Frames) : Bool := f.opBf &&& 0x03 == 0

/-- The mode value lies in the top two bits of its byte (rule R63). -/
def Frames.modeOk (f : Frames) : Bool := f.modBf &&& 0x3F == 0

/-- All checks together. -/
def Frames.wellFormed (f : Frames) : Bool :=
  f.widthOk && f.directionOk && f.reg1Ok && f.reg2Ok && f.operationOk && f.modeOk

/-- An instruction is well-formed when the byte-frame values of its fields are. -/
def Instr.wellFormed (i : Instr) : Bool := i.frames.wellFormed

end Sys2Proof
end

