-- ==== Sys2Proof/Decode.lean ====
section
/-! DEFINITION. From stream bytes to an instruction and back: word assembly (rule R46 of spec/20_memory.md), the
bit-field extractor (rules R62 and R63 of spec/30_encoding.md), and the encoder. Decoding is total: any two bytes are a
`mov` (rules R66, R68), and fewer than two bytes are rejected by name (rule R45). -/

namespace Sys2Proof

/-- Word assembly: `b0` is the byte read first (rule R46). -/
def assemble : ByteOrder → Byte → Byte → Word
  | .firstHigh, b0, b1 => b0 ++ b1
  | .firstLow, b0, b1 => b1 ++ b0

/-- The two stream bytes of a word, the first read first: the inverse of `assemble` (rule R46). -/
def wordBytes : ByteOrder → Word → List Byte
  | .firstHigh, v => [v.extractLsb' 8 8, v.extractLsb' 0 8]
  | .firstLow, v => [v.extractLsb' 0 8, v.extractLsb' 8 8]

/-- The bit-field extractor (BFE): the six fields at their logical widths (rule R62). -/
def decodeWord (instr : Word) : Instr :=
  .mov (instr.extractLsb' 10 6) (instr.extractLsb' 9 1) (instr.extractLsb' 8 1) (instr.extractLsb' 6 2)
    (instr.extractLsb' 3 3) (instr.extractLsb' 0 3)

/-- The word of an instruction, format `F16` (rule R61). -/
def encodeWord : Instr → Word
  | .mov op d w mod reg rm => op ++ d ++ w ++ mod ++ reg ++ rm

/-- The byte-frame values of a word's fields by the masks of rule R63. -/
def byteFrames (instr : Word) : Frames :=
  let hi : BitVec 8 := instr.extractLsb' 8 8
  let lo : BitVec 8 := instr.extractLsb' 0 8
  { opBf := hi &&& 0b11111100, dirBf := hi &&& 0b00000010, wBf := hi &&& 0b00000001
    modBf := lo &&& 0b11000000, reg1Bf := lo &&& 0b00111000, reg2Bf := lo &&& 0b00000111 }

/-- Why no instruction is read from a byte sequence. -/
inductive DecodeReject where
  /-- Fewer than two bytes are there (rule R45: `ReadPair` returns `End`); it carries how many. -/
  | shortRead (have_ : Nat)
deriving DecidableEq, Repr

/-- Read one instruction from the front of a byte sequence and return it with the rest (rules R45, R46, R69). -/
def decode (o : ByteOrder) : List Byte → Except DecodeReject (Instr × List Byte)
  | b0 :: b1 :: rest => .ok (decodeWord (assemble o b0 b1), rest)
  | bs => .error (.shortRead bs.length)

/-- The stream bytes of an instruction (rules R46, R61). -/
def encode (o : ByteOrder) (i : Instr) : List Byte := wordBytes o (encodeWord i)

/-- The word a table row's bits are: the bits above `nbits` are 0. -/
def tableWord (nbits w : Nat) : Word := BitVec.ofNat 16 (w % 2 ^ nbits)

/-- The instruction the decoder reads from an instruction whose bits, numbered as spec/opcode_table.json numbers them,
are `w`. The bytes are laid out and read in the spec's default order `FIRST_HIGH` (rule R46). No row is wider than one
word (rule R60). -/
def decodeTableWord (nbits w : Nat) : Option Instr :=
  if nbits = 0 ∨ 16 < nbits then none
  else match decode .firstHigh (wordBytes .firstHigh (tableWord nbits w)) with
    | .ok (i, _) => some i
    | .error _ => none

end Sys2Proof
end

