-- ==== Sys2Proof/Machine/State.lean ====
section
/-! DEFINITION. Everything that can differ between two moments of a run. The core itself is combinational and holds no
mutable state (rules R20 to R22, R28 to R33 of spec/10_state.md): its only stored content, the two register tables, is
constant and stands in Machine/Operands.lean, and its ports are functions in Machine/Idu.lean. What changes is the host's:
its place in the input stream, the lines it has emitted, and where the run stands (rules R29, R34, R41, R42, R53). -/

namespace Sys2Proof.Machine

/-- The causes of rule R122, each with the info it records. Two are raised by the core and two by the host. The step
never answers one as its own outcome: rule R128 says how a run ends on one, and the step takes that ending as a next state
(log entry 3). -/
inductive Fault where
  /-- Key-not-found, raised by the RTU's `lookup` for a key outside `K` (rules R85, R123). Reachable at the RTU's port
  only. Safe: the lookup has no value. -/
  | lookupFault (wclass : WidthClass) (key : Key)
  /-- A width value other than 0 and 1, raised by the width select (rules R102, R124). No word has one. Safe: the decode
  has no value. -/
  | widthFault (value : BitVec 8)
  /-- The input source cannot be opened, raised by the host (rule R126). Safe: no word is decoded. -/
  | inputUnopenable
  /-- `BATCH` mode and an odd length `n`, raised by the host (rule R127). Safe: no word is decoded. -/
  | malformedLength (n : Nat)
deriving DecidableEq, Repr

/-- Why an instruction has no meaning in the model. -/
inductive Refusal where
  /-- Raised by an arm of `exec` that has no meaning yet; no arm is left so. Safe: the machine stops. -/
  | notModelled (mnemonic : String)
deriving DecidableEq, Repr

/-- How a run ends (rule R53). `Fatal(code)` is kept with its cause, whose code rule R122 gives. -/
inductive RunOutcome where
  | clean
  | fatal (cause : Fault)
deriving DecidableEq, Repr

/-- Where a run stands: the three boot actions of rule R143 in their order, then its end (rules R53, R130). -/
inductive Phase where
  /-- The input source is not opened yet (rule R143 item 1). -/
  | opening
  /-- Opened; the length is not checked yet (rule R143 item 2). -/
  | lengthCheck
  /-- Words are being presented to the IDU (rule R143 item 3). -/
  | decoding
  /-- The run has ended (rule R53). -/
  | ended (outcome : RunOutcome)
deriving DecidableEq, Repr

/-- The state of the system, core and host. -/
structure State where
  /-- `P_BYTE_ORDER`, fixed for the machine (rule R54). -/
  byteOrder : ByteOrder
  /-- `P_HOST_MODE`, fixed for the machine (rule R8). -/
  hostMode : HostMode
  /-- Whether the input source can be opened: the environment's (rule R126). -/
  openable : Bool
  /-- The input stream `B[0..n-1]`, fixed for the run (rules R41, R59). -/
  input : List Byte
  /-- Where the run stands (rules R53, R143). -/
  phase : Phase
  /-- The host's word index `k` (rules R29, R46). It counts words and never wraps. -/
  k : Nat
  /-- The output lines, in the order emitted (rules R42, R50, R52). -/
  lines : List String
deriving DecidableEq, Repr

/-- The start of a run: word index 0 and empty output (rules R142, R34), nothing opened yet (rule R143). -/
def State.start (byteOrder : ByteOrder) (hostMode : HostMode) (openable : Bool) (input : List Byte) : State :=
  { byteOrder, hostMode, openable, input, phase := .opening, k := 0, lines := [] }

/-- The machine right after reset: the start of a run (rules R34, R142) with the spec's default byte order (rule R46).
The host mode is open and opaque (log entry 1); the spec gives the environment no input at reset, so the source can be
opened and holds no byte (log entry 2). -/
def State.reset : State := State.start .firstHigh Config.hostMode true []

/-! The updates of State. Every change a step makes goes through one of these three. -/

/-- Move the run to another phase. -/
def State.setPhase (s : State) (p : Phase) : State := { s with phase := p }

/-- Append lines to the output (rule R50). -/
def State.emit (s : State) (ls : List String) : State := { s with lines := s.lines ++ ls }

/-- Advance the word index by one word (rule R29). -/
def State.advance (s : State) : State := { s with k := s.k + 1 }

end Sys2Proof.Machine
end

