-- ==== Sys2Proof/Machine/Flags.lean ====
section
/-! DEFINITION. The core has no status flags and no condition codes (rule R30 of spec/10_state.md). Its only status
outputs are the signals `fault` and `fault_code` of rules R121 and R122 of spec/60_exceptions.md. -/

namespace Sys2Proof.Machine

/-- The cause codes (rule R122). -/
def faultCode : Fault → FaultCode
  | .lookupFault _ _ => 1
  | .widthFault _ => 2
  | .inputUnopenable => 3
  | .malformedLength _ => 4

/-- The code of a run's outcome; 0 is also the code of a clean end of stream (rule R122). -/
def outcomeCode : RunOutcome → FaultCode
  | .clean => 0
  | .fatal f => faultCode f

/-- The IDU's `fault` signal for a decode's outcome: 1 exactly when it faulted (rule R121). -/
def faultSignal {α : Type} : Except Fault α → BitVec 1
  | .ok _ => 0
  | .error _ => 1

/-- The IDU's `fault_code` signal for a decode's outcome: the cause code, else 0 (rules R23, R122). -/
def faultCodeSignal {α : Type} : Except Fault α → FaultCode
  | .ok _ => 0
  | .error f => faultCode f

end Sys2Proof.Machine
end

