-- ==== Sys2Proof/Machine/Operands.lean ====
section
/-! DEFINITION. The Register Table Unit and operand resolution: the tables' contents and the lookup
(spec/40_register_table.md rules R80 to R88), the register names (rules R25, R26), the width select, the resolution of
both selectors and the direction tie-break (spec/41_mov_decoder.md rules R102 to R104). Register-direct is the only
operand form (rules R64, R67). -/

namespace Sys2Proof.Machine

/-- The word register of a selector (rule R25, word column). -/
def wordName (sel : Sel) : String :=
  match sel.toNat with
  | 0 => "ax"
  | 1 => "cx"
  | 2 => "dx"
  | 3 => "bx"
  | 4 => "sp"
  | 5 => "bp"
  | 6 => "si"
  | _ => "di"

/-- The byte register of a selector (rule R25, byte column). -/
def byteName (sel : Sel) : String :=
  match sel.toNat with
  | 0 => "al"
  | 1 => "cl"
  | 2 => "dl"
  | 3 => "bl"
  | 4 => "ah"
  | 5 => "ch"
  | 6 => "dh"
  | _ => "bh"

/-- The RegId of a width class and a selector (rule R26). -/
def regId (wclass : WidthClass) (sel : Sel) : RegId := wclass ++ sel

/-- `Name(id)` (rule R26). -/
def regName (id : RegId) : String :=
  if id.getLsbD 3 then wordName (id.extractLsb' 0 3) else byteName (id.extractLsb' 0 3)

/-- The word table's 16 entries, reg form then rm form (rule R80). -/
def wordTable : List (Key × String) :=
  [(0, "ax"), (8, "cx"), (16, "dx"), (24, "bx"), (32, "sp"), (40, "bp"), (48, "si"), (56, "di"),
   (0, "ax"), (1, "cx"), (2, "dx"), (3, "bx"), (4, "sp"), (5, "bp"), (6, "si"), (7, "di")]

/-- The byte table's 16 entries, reg form then rm form (rule R80). -/
def byteTable : List (Key × String) :=
  [(0, "al"), (8, "cl"), (16, "dl"), (24, "bl"), (32, "ah"), (40, "ch"), (48, "dh"), (56, "bh"),
   (0, "al"), (1, "cl"), (2, "dl"), (3, "bl"), (4, "ah"), (5, "ch"), (6, "dh"), (7, "bh")]

/-- The table a width class selects (rule R82). -/
def table (wclass : WidthClass) : List (Key × String) := if wclass = 1 then wordTable else byteTable

/-- The RTU's lookup: a key of the rm form, a key of the reg form, or key-not-found (rules R84, R85). -/
def lookup (wclass : WidthClass) (key : Key) : Except Fault RegId :=
  if key.extractLsb' 3 5 = 0 then .ok (regId wclass (key.extractLsb' 0 3))
  else if key.extractLsb' 6 2 = 0 ∧ key.extractLsb' 0 3 = 0 then .ok (regId wclass (key.extractLsb' 3 3))
  else .error (.lookupFault wclass key)

/-- The width select over the width field's byte-frame value; a value other than 0 and 1 is a decode failure, never
empty operands (rules R102, R124). -/
def widthSelect (wBf : BitVec 8) : Except Fault WidthClass :=
  if wBf = 1 then .ok 1 else if wBf = 0 then .ok 0 else .error (.widthFault wBf)

/-- The operand pair of one instruction. -/
structure Operands where
  src : RegId
  dst : RegId
deriving DecidableEq, Repr

/-- The direction tie-break: the sentinel 0b00000010 makes the reg field (`val1`) the destination (rule R104). -/
def tieBreak (dirBf : BitVec 8) (val1 val2 : RegId) : Operands :=
  if dirBf = 0b00000010 then { src := val2, dst := val1 } else { src := val1, dst := val2 }

/-- Steps 2 to 4 of the decode over the byte-frame values: width select, then the reg1 lookup, then the reg2 lookup, then
the tie-break. The first fault in that order is the one reported (rules R102 to R104, R125). -/
def resolveFrames (f : Frames) : Except Fault Operands :=
  match widthSelect f.wBf with
  | .error e => .error e
  | .ok wclass =>
    match lookup wclass f.reg1Bf with
    | .error e => .error e
    | .ok val1 =>
      match lookup wclass f.reg2Bf with
      | .error e => .error e
      | .ok val2 => .ok (tieBreak f.dirBf val1 val2)

end Sys2Proof.Machine
end

