-- ==== Sys2Proof/Machine/Idu.lean ====
section
/-! DEFINITION. The two units at their ports: the Instruction Decoder Unit (spec/41_mov_decoder.md rules R100 to R107) and
the Register Table Unit's lookup port (rules R24, R84). Every output is a function of the unit's present inputs and of
nothing else (rule R20). -/

namespace Sys2Proof.Machine

/-- The IDU's decode of one word: byte frames, then resolution (rule R107). -/
def iduDecode (instr : Word) : Except Fault Operands := resolveFrames (byteFrames instr)

/-- `Render(dst, src)` (rules R70, R105). -/
def render (dst src : RegId) : String := "mov " ++ regName dst ++ ", " ++ regName src

/-- The decoder's contract: the rendered text of one word, or the fault (rules R100, R120). -/
def iduText (instr : Word) : Except Fault String :=
  match iduDecode instr with
  | .ok o => .ok (render o.dst o.src)
  | .error e => .error e

/-- The output ports of the IDU (rule R23). -/
structure IduPorts where
  op : BitVec 6
  d : BitVec 1
  w : BitVec 1
  mod : BitVec 2
  reg : Sel
  rm : Sel
  srcId : RegId
  dstId : RegId
  fault : BitVec 1
  faultCode : FaultCode
deriving DecidableEq, Repr

/-- The ports driven for a word and an outcome of its decode. The field ports are driven whatever the outcome (rules R62,
R120); the two identifiers are free values when the decode faulted (rule R120, log entry 6). -/
def driveIdu (instr : Word) (r : Except Fault Operands) : IduPorts :=
  { op := instr.extractLsb' 10 6, d := instr.extractLsb' 9 1, w := instr.extractLsb' 8 1
    mod := instr.extractLsb' 6 2, reg := instr.extractLsb' 3 3, rm := instr.extractLsb' 0 3
    srcId := match r with
      | .ok o => o.src
      | .error _ => Config.srcIdUnderFault instr
    dstId := match r with
      | .ok o => o.dst
      | .error _ => Config.dstIdUnderFault instr
    fault := faultSignal r, faultCode := faultCodeSignal r }

/-- The IDU's outputs for its present input word (rules R20, R23). -/
def iduOutputs (instr : Word) : IduPorts := driveIdu instr (iduDecode instr)

/-- The output signals of the RTU's lookup port (rule R24). -/
structure RtuPorts where
  id : RegId
  kfault : BitVec 1
deriving DecidableEq, Repr

/-- The RTU's outputs for its present inputs (rule R84, ports). Under `kfault` = 1 the identifier is a free value that
nothing reads (rule R85, U4, log entry 6). -/
def rtuOutputs (wclass : WidthClass) (key : Key) : RtuPorts :=
  match lookup wclass key with
  | .ok v => { id := v, kfault := 0 }
  | .error _ => { id := Config.idUnderFault wclass key, kfault := 1 }

end Sys2Proof.Machine
end

