-- ==== Sys2Proof/Machine/Ops.lean ====
section
/-! DEFINITION. The named operations of the host over the input stream, the output and the run: reading a pair
(rules R45, R46 of spec/20_memory.md), the two lines per word (rules R50, R51), opening the source and checking the length
(rules R47, R126, R127, R143), ending a run, and what a fault does to a run (rule R128 of spec/60_exceptions.md). There is
no memory to load from or store to (rules R40, R43) and no return from a fault (rule R132). -/

namespace Sys2Proof.Machine

/-- Byte `B[a]` of the input stream, if it has one (rule R41). -/
def State.streamByte (s : State) (a : Nat) : Option Byte := s.input[a]?

/-- The bytes not yet read: word `k` starts at offset `2k` (rules R46, R55). -/
def unread (s : State) : List Byte := s.input.drop (2 * s.k)

/-- `ReadPair()`: the next two unread bytes in stream order, or `End` (rule R45). -/
def readPair (s : State) : Option (Byte × Byte) :=
  match unread s with
  | b0 :: b1 :: _ => some (b0, b1)
  | _ => none

/-- The instruction the next pair is, or none at the end of the stream (rules R45, R46). -/
def fetch (s : State) : Option Instr :=
  match readPair s with
  | none => none
  | some (b0, b1) =>
    match decode s.byteOrder [b0, b1] with
    | .ok (i, _) => some i
    | .error _ => none

/-- `Bin16(v)`: 16 binary digits, most significant bit first (rule R51). -/
def bin16 (v : Word) : String :=
  String.ofList ((List.range 16).map fun i => if v.getLsbD (15 - i) then '1' else '0')

/-- The two lines of a decoded word (rule R50). -/
def wordLines (instr : Word) (o : Operands) : List String :=
  ["Decoded instruction: " ++ render o.dst o.src, bin16 instr]

/-- End the run; the lines emitted so far stand (rule R53). -/
def endRun (o : RunOutcome) (s : State) : State := s.setPhase (.ended o)

/-- What a fault does to a run: it ends `Fatal`, earlier lines stand, the faulting word emits none, nothing is saved and
control goes nowhere (rules R126 to R128, R131). The word index stays at the faulting word (log entry 4). -/
def takeFault (f : Fault) (s : State) : State := endRun (.fatal f) s

/-- What the host does with the outcome of one word's decode: append the two lines and go on to the next word, or take the
fault (rules R29, R50, R128). -/
def deliver (instr : Word) (r : Except Fault Operands) (s : State) : State :=
  match r with
  | .ok o => (s.emit (wordLines instr o)).advance
  | .error f => takeFault f s

/-- Open the input source, or end the run `Fatal(3)` (rules R126, R143 item 1). -/
def openSource (s : State) : State :=
  if s.openable then s.setPhase .lengthCheck else takeFault .inputUnopenable s

/-- The length check of `BATCH` mode, before any decoding; `STREAM` mode checks nothing (rules R47, R48, R127, R129,
R143 item 2). -/
def checkLength (s : State) : State :=
  if s.input.length % 2 == 1 && s.hostMode == .batch then takeFault (.malformedLength s.input.length) s
  else s.setPhase .decoding

/-- `ReadPair` returned `End`: the run ends clean, whatever odd byte is left over (rules R45, R48, R129). -/
def endOfStream (s : State) : State := endRun .clean s

/-- After its end a run changes no more: nothing is decoded and a fault is never cleared (rules R53, R128; log entry 5). -/
def afterEnd (s : State) : State := s

/-- Put bytes into a byte sequence from an offset on, filling a gap with zero bytes: how a program is placed from outside
the machine. -/
def placeAt (off : Nat) (bs : List Byte) (input : List Byte) : List Byte :=
  (input ++ List.replicate (off - input.length) 0).take off ++ bs ++ input.drop (off + bs.length)

end Sys2Proof.Machine
end

