-- ==== Sys2Proof/Machine/Mov.lean ====
section
/-! DEFINITION. The meaning of `mov`, the one instruction (rule R107 of spec/41_mov_decoder.md): the IDU decodes its word and
the host emits the two lines. It names the operands of a move and performs none: no register, flag or memory is written
(rule R109), and the host goes on to the next word whatever the word holds (rules R110 to R112). -/

namespace Sys2Proof.Machine

/-- `mov`: decode the word of the six fields and deliver the outcome (rules R50, R107, R128). -/
def execMov (op : BitVec 6) (d : BitVec 1) (w : BitVec 1) (mod : BitVec 2) (reg rm : Sel) (s : State) :
    Host.Outcome State Fault Refusal :=
  let instr := encodeWord (.mov op d w mod reg rm)
  .next (deliver instr (iduDecode instr) s)

end Sys2Proof.Machine
end

