-- ==== Sys2Proof/Machine/Dispatch.lean ====
section
/-! DEFINITION. One arm per constructor of Instr. -/

namespace Sys2Proof.Machine

def exec (i : Instr) (s : State) : Host.Outcome State Fault Refusal :=
  match i with
  | .mov op d w mod reg rm => Sys2Proof.Machine.execMov op d w mod reg rm s

end Sys2Proof.Machine
end

