-- ==== Sys2Proof/Machine/Step.lean ====
section
/-! DEFINITION. One step of the system: one action of the host in the order of rule R143 of
spec/70_reset_and_hazards.md. A step that presents a word runs its instruction. -/

namespace Sys2Proof.Machine

/-- Open the source, check the length, then present one word a step until the stream ends (rules R130, R143). -/
def step (s : State) : Host.Outcome State Fault Refusal :=
  match s.phase with
  | .opening => .next (openSource s)
  | .lengthCheck => .next (checkLength s)
  | .decoding =>
    match fetch s with
    | some i => exec i s
    | none => .next (endOfStream s)
  | .ended _ => .next (afterEnd s)

/-- The state with an instruction stored where the step reads its next word: at stream offset `2k` in the machine's byte
order, with the run past its boot actions. It stands for the loading of a program from outside (log entry 2). -/
def State.withFetchWord (s : State) (nbits w : Nat) : State :=
  { s with phase := .decoding, input := placeAt (2 * s.k) (wordBytes s.byteOrder (tableWord nbits w)) s.input }

end Sys2Proof.Machine
end

