-- ==== Sys2Proof/Machine/Realisation.lean ====
section
/-! DEFINITION. Realisations of the IDU other than the reference one: outputs registered `P_LATENCY` >= 1 cycles after the
word (rule R145 of spec/70_reset_and_hazards.md), and several words decoded at once (rules R57, R137). They are no part of
the reference machine, which is combinational and decodes one word at a time, and no other definition uses them: they give
the spec's requirements on such a realisation a machine to be stated about. Their shape is the model's choice (log
entry 9). -/

namespace Sys2Proof.Machine

/-- A delay line: the results on their way, the oldest first; `none` is a cycle in which no word was presented. Each result
stays with its own word, as rule R145 asks. -/
structure Pipe where
  stages : List (Option (Word × IduPorts))
deriving DecidableEq, Repr

/-- A delay line of `n` cycles with nothing in it. -/
def Pipe.empty (n : Nat) : Pipe := { stages := List.replicate n none }

/-- One cycle: a word (or none) goes in, and what went in `n` cycles ago comes out. -/
def clockPipe (p : Pipe) (inp : Option Word) : Option (Word × IduPorts) × Pipe :=
  match p.stages ++ [inp.map fun v => (v, iduOutputs v)] with
  | [] => (none, p)
  | out :: rest => (out, { stages := rest })

/-- Run a delay line over a sequence of cycles and collect what comes out at each. -/
def drivePipe : Pipe → List (Option Word) → List (Option (Word × IduPorts))
  | _, [] => []
  | p, x :: xs => (clockPipe p x).1 :: drivePipe (clockPipe p x).2 xs

/-- The machine's own registered realisation, with `P_LATENCY` cycles (rule R8). -/
def registeredIdu : Pipe := Pipe.empty Config.latency

/-- Several words decoded at once, each result beside its own word: no decode waits for another (rules R33, R137). -/
def decodeTogether (ws : List Word) : List (Word × Except Fault Operands) := ws.map fun v => (v, iduDecode v)

/-- Deliver results to the host one after the other, in the order of the list (rule R57). -/
def deliverAll : List (Word × Except Fault Operands) → State → State
  | [], s => s
  | (v, r) :: rest, s => deliverAll rest (deliver v r s)

end Sys2Proof.Machine
end

