-- ==== Sys2Proof/Machine/Report.lean ====
section
/-! DEFINITION. What the process shows beyond the observation of rule R53 of spec/20_memory.md: its exit status and its
report on a fatal error (rule R126 of spec/60_exceptions.md), and the raw text of its output. Each rests on free values of
Config.lean, since the spec leaves them open (U7, U8, U9). -/

namespace Sys2Proof.Machine

/-- The exit status: the parameter `P_EXIT_FAIL`, any nonzero value, on a fatal error (rule R126); open on a clean end (rule
R53). That every clean run has one status is the model's choice (log entry 13). -/
def exitStatus : RunOutcome → Nat
  | .clean => Config.exitClean
  | .fatal _ => Config.exitFailLessOne + 1

/-- The report to the user: there is one on a fatal error, of open text (rule R126, U9), and none is named otherwise. That the
text depends on the fault code alone, so that two odd lengths give one report, is the model's choice (log entry 13). -/
def report : RunOutcome → Option String
  | .clean => none
  | .fatal f => some (Config.reportText (faultCode f))

/-- The output lines as one text, with the open terminator `P_EOL` between them and perhaps after the last (D15, N8). -/
def outputText : List String → String
  | [] => ""
  | [l] => if Config.lastLineTerminated then l ++ Config.eol else l
  | l :: ls => l ++ Config.eol ++ outputText ls

/-- The raw bytes of the output in the open character encoding (D15). -/
def rawOutput (ls : List String) : List Byte := Config.encodeText (outputText ls)

end Sys2Proof.Machine
end

