-- ==== Sys2Proof/Safety.lean ====
section
/-! DEFINITION. What claims about runs are stated in: the observation of a run (rule R53 of spec/20_memory.md), what the
spec expects of a whole run, written without the machine's step, and the invariant that ties a state to the part of the
stream already decoded. -/

namespace Sys2Proof.Machine

/-- `n` steps, stopping at a fault or a refusal. -/
def runFor : Nat → State → Host.Outcome State Fault Refusal
  | 0, s => .next s
  | n + 1, s =>
    match step s with
    | .next s' => runFor n s'
    | .fault f => .fault f
    | .refused r => .refused r

/-- The observation of a run: its output lines and its outcome (rule R53). -/
structure Observation where
  lines : List String
  outcome : RunOutcome
deriving DecidableEq, Repr

/-- The observation a state shows: there is one when the run has ended (rule R53). -/
def observe (s : State) : Option Observation :=
  match s.phase with
  | .ended o => some { lines := s.lines, outcome := o }
  | _ => none

/-- The words of a byte sequence: consecutive pairs in stream order, an odd tail left out (rules R46, R55). -/
def wordsOf (o : ByteOrder) : List Byte → List Word
  | b0 :: b1 :: rest => assemble o b0 b1 :: wordsOf o rest
  | _ => []

/-- The operands the spec gives a word, straight from its bits: the register of `{w, reg}` is the destination when `d` is 1
and the source when `d` is 0, and the register of `{w, rm}` is the other (rules R102 to R104). -/
def expectedOperands (v : Word) : Operands :=
  let regOperand : RegId := v.extractLsb' 8 1 ++ v.extractLsb' 3 3
  let rmOperand : RegId := v.extractLsb' 8 1 ++ v.extractLsb' 0 3
  if v.getLsbD 9 then { src := rmOperand, dst := regOperand } else { src := regOperand, dst := rmOperand }

/-- The two lines the spec gives a word (rule R50). -/
def expectedLines (v : Word) : List String :=
  ["Decoded instruction: mov " ++ regName (expectedOperands v).dst ++ ", " ++ regName (expectedOperands v).src, bin16 v]

/-- The lines of the first `k` words of a byte sequence, in stream order (rule R52). -/
def linesUpTo (o : ByteOrder) (input : List Byte) (k : Nat) : List String :=
  ((wordsOf o input).take k).flatMap expectedLines

/-- What the spec expects of a whole run (rules R47 to R53, R126, R127, R130). -/
def expectedRun (o : ByteOrder) (m : HostMode) (openable : Bool) (input : List Byte) : Observation :=
  if openable = false then { lines := [], outcome := .fatal .inputUnopenable }
  else if m = .batch ∧ input.length % 2 = 1 then { lines := [], outcome := .fatal (.malformedLength input.length) }
  else { lines := (wordsOf o input).flatMap expectedLines, outcome := .clean }

/-- `BATCH` mode admits the input to decoding, and `STREAM` mode admits every input (rules R47, R48). -/
def State.lengthAdmitted (s : State) : Prop := s.hostMode = .batch → s.input.length % 2 = 0

/-- What each phase promises (rules R47, R48, R53, R108, R126, R127, R130). -/
def State.phaseOk (s : State) : Prop :=
  match s.phase with
  | .opening => s.k = 0
  | .lengthCheck => s.k = 0 ∧ s.openable = true
  | .decoding => s.openable = true ∧ s.lengthAdmitted
  | .ended .clean => s.openable = true ∧ s.lengthAdmitted ∧ s.k = s.input.length / 2
  | .ended (.fatal .inputUnopenable) => s.k = 0 ∧ s.openable = false
  | .ended (.fatal (.malformedLength n)) =>
    s.k = 0 ∧ s.openable = true ∧ s.hostMode = .batch ∧ n = s.input.length ∧ n % 2 = 1
  | .ended (.fatal (.lookupFault _ _)) => False
  | .ended (.fatal (.widthFault _)) => False

/-- The invariant of a run: the word index stays within the stream, the output is exactly the two lines of each word
before it in stream order, and the phase keeps its promise. -/
structure State.Inv (s : State) : Prop where
  inStream : 2 * s.k ≤ s.input.length
  linesSoFar : s.lines = linesUpTo s.byteOrder s.input s.k
  phasePromise : s.phaseOk

end Sys2Proof.Machine
end

