-- ==== Sys2Proof/Certificates/Slice0/Obligations.lean ====
section
/-! DEFINITION. The statements for the provers. Each docstring names the rules it formalises. A clause that rests on the
model's own choice says so and names the log entry. -/

open Sys2Proof Sys2Proof.Machine

/-! ## Encoding -/

/-- Rule R62: the six field ports are the slices of the word, they are driven whatever the decode's outcome `r` is (also a
fault), and together they are the word again. -/
def Obligations.FieldPortsAreSlicesAndRebuildTheWord : Prop :=
  ∀ (instr : Word) (r : Except Fault Operands),
    (driveIdu instr r).op = instr.extractLsb 15 10 ∧ (driveIdu instr r).d = instr.extractLsb 9 9 ∧
    (driveIdu instr r).w = instr.extractLsb 8 8 ∧ (driveIdu instr r).mod = instr.extractLsb 7 6 ∧
    (driveIdu instr r).reg = instr.extractLsb 5 3 ∧ (driveIdu instr r).rm = instr.extractLsb 2 0 ∧
    (driveIdu instr r).op ++ (driveIdu instr r).d ++ (driveIdu instr r).w ++ (driveIdu instr r).mod ++
      (driveIdu instr r).reg ++ (driveIdu instr r).rm = instr ∧
    iduOutputs instr = driveIdu instr (iduDecode instr)

/-- Rule R63: the masked byte-frame values are the fields at their own places with zeros beside them, the selectors' values
are the keys 0, 8, …, 56 and 0, …, 7; the resolution compares the direction's value with the sentinel, takes the selectors'
values as keys and the width's value 1 for the word table and 0 for the byte table, and reads neither the operation's nor the
mode's value. -/
def Obligations.ByteFrameValuesAreFieldsInPlace : Prop :=
  (∀ (op : BitVec 6) (d w : BitVec 1) (mod : BitVec 2) (reg rm : Sel) (instr : Word),
    instr = op ++ d ++ w ++ mod ++ reg ++ rm →
    byteFrames instr =
      { opBf := instr.extractLsb 15 8 &&& 0b11111100, dirBf := instr.extractLsb 15 8 &&& 0b00000010
        wBf := instr.extractLsb 15 8 &&& 0b00000001, modBf := instr.extractLsb 7 0 &&& 0b11000000
        reg1Bf := instr.extractLsb 7 0 &&& 0b00111000, reg2Bf := instr.extractLsb 7 0 &&& 0b00000111 } ∧
    byteFrames instr =
      { opBf := op ++ (0#2), dirBf := (0#6) ++ d ++ (0#1), wBf := (0#7) ++ w, modBf := mod ++ (0#6)
        reg1Bf := (0#2) ++ reg ++ (0#3), reg2Bf := (0#5) ++ rm } ∧
    (byteFrames instr).reg1Bf.toNat = 8 * reg.toNat ∧ (byteFrames instr).reg2Bf.toNat = rm.toNat) ∧
  (∀ (f : Frames) (a b : BitVec 8), resolveFrames { f with opBf := a, modBf := b } = resolveFrames f) ∧
  widthSelect 1 = .ok 1 ∧ widthSelect 0 = .ok 0 ∧
  ∀ (f : Frames) (wc : WidthClass) (val1 val2 : RegId), widthSelect f.wBf = .ok wc →
    lookup wc f.reg1Bf = .ok val1 → lookup wc f.reg2Bf = .ok val2 →
    resolveFrames f = .ok (if f.dirBf = 0b00000010 then { src := val2, dst := val1 } else { src := val1, dst := val2 })

/-- Decode and encode agree: for every instruction, in either byte order, decoding its bytes gives it back with every field
as it was, and leaves the bytes behind it alone (rules R46, R61, R62, R69). -/
def Obligations.DecodeOfEncodeGivesTheInstructionBack : Prop :=
  ∀ (o : ByteOrder) (i : Instr) (rest : List Byte), decode o (encode o i ++ rest) = .ok (i, rest)

/-- Every pair of bytes is one instruction and only one: no encoding is illegal or reserved, no two instructions share a
word, and no bit of the word is lost (rules R60, R66, R68, R69). -/
def Obligations.EveryPairOfBytesIsExactlyOneInstruction : Prop :=
  ∀ (o : ByteOrder) (b0 b1 : Byte) (rest : List Byte),
    ∃ i, decode o (b0 :: b1 :: rest) = .ok (i, rest) ∧ encode o i = [b0, b1] ∧ ∀ j, encode o j = [b0, b1] → j = i

/-- The fields of every instruction are well-formed in the byte frame, and so are the masked values of every word. -/
def Obligations.EveryWordIsWellFormed : Prop :=
  (∀ i : Instr, i.wellFormed = true) ∧
  ∀ instr : Word, (byteFrames instr).wellFormed = true ∧ (decodeWord instr).frames = byteFrames instr

/-- The words of the spec's test vectors S2, S3, S4, V-F3, V-F6, V-S1 and V-S2, each decoded to the fields its binary form
shows. -/
def Obligations.SpecWordsDecodeToTheirFields : Prop :=
  decodeWord 0b1000100111000001 = .mov 0b100010 0 1 0b11 0b000 0b001 ∧
  decodeWord 0b1000101111000001 = .mov 0b100010 1 1 0b11 0b000 0b001 ∧
  decodeWord 0b1000100011000011 = .mov 0b100010 0 0 0b11 0b000 0b011 ∧
  decodeWord 0b1010010110100101 = .mov 0b101001 0 1 0b10 0b100 0b101 ∧
  decodeWord 0b0001001000110100 = .mov 0b000100 1 0 0b00 0b110 0b100 ∧
  decodeWord 0b1111111111111111 = .mov 0b111111 1 1 0b11 0b111 0b111 ∧
  decodeWord 0b0000000000000000 = .mov 0b000000 0 0 0b00 0b000 0b000

/-- A word of the opcode table placed where the step fetches is the instruction the decoder reads from it, and the very next
step runs exactly that instruction (rules R46, R66). -/
def Obligations.PlacedTableWordIsTheInstructionRunNext : Prop :=
  ∀ (s : State) (w : Nat), w < 65536 →
    decodeTableWord 16 w = some (decodeWord (BitVec.ofNat 16 w)) ∧
    step (s.withFetchWord 16 w) = exec (decodeWord (BitVec.ofNat 16 w)) (s.withFetchWord 16 w)

/-! ## The Register Table Unit -/

/-- Rules R80, R81, R82: each table has 16 entries over the same keys in the same order with the names of each column: for
each selector one entry of the reg form and one of the rm form with that selector's name. The distinct keys are the 15 of
`K`, and each table is a function of the key. -/
def Obligations.TablesEnumerateSixteenEntriesOverFifteenKeys : Prop :=
  (∀ wc : WidthClass, (table wc).length = 16 ∧
    (table wc).map (fun e => e.1) = [0, 8, 16, 24, 32, 40, 48, 56, 0, 1, 2, 3, 4, 5, 6, 7] ∧
    (∀ key : Key, key ∈ keySet ↔ key ∈ (table wc).map fun e => e.1) ∧
    (∀ sel : Sel, (table wc)[sel.toNat]? = some ((0#2) ++ sel ++ (0#3), regName (wc ++ sel)) ∧
      (table wc)[8 + sel.toNat]? = some ((0#5) ++ sel, regName (wc ++ sel))) ∧
    (∀ e ∈ table wc, ∀ e' ∈ table wc, e.1 = e'.1 → e = e')) ∧
  (table 1).map (fun e => e.2) = ["ax", "cx", "dx", "bx", "sp", "bp", "si", "di", "ax", "cx", "dx", "bx", "sp", "bp", "si", "di"] ∧
  (table 0).map (fun e => e.2) = ["al", "cl", "dl", "bl", "ah", "ch", "dh", "bh", "al", "cl", "dl", "bl", "ah", "ch", "dh", "bh"] ∧
  keySet.length = 15 ∧ keySet.Nodup

/-- Rule R84: the lookup's three branches, and what the two output ports are on each. The `id` port is stated only where the
lookup returned. -/
def Obligations.LookupFollowsItsThreeBranches : Prop :=
  ∀ (wc : WidthClass) (key : Key),
    (key.extractLsb 7 3 = 0 → lookup wc key = .ok (wc ++ key.extractLsb 2 0)) ∧
    (key.extractLsb 7 3 ≠ 0 → key.extractLsb 7 6 = 0 → key.extractLsb 2 0 = 0 →
      lookup wc key = .ok (wc ++ key.extractLsb 5 3)) ∧
    (key.extractLsb 7 3 ≠ 0 → ¬(key.extractLsb 7 6 = 0 ∧ key.extractLsb 2 0 = 0) →
      lookup wc key = .error (.lookupFault wc key)) ∧
    (∀ v, lookup wc key = .ok v → (rtuOutputs wc key).id = v ∧ (rtuOutputs wc key).kfault = 0) ∧
    (∀ f, lookup wc key = .error f → (rtuOutputs wc key).kfault = 1)

/-- Rule R87: for every entry of a table the lookup of its key succeeds and its name is the entry's, and every key outside
`K` raises `LookupFault` with the class and the key. -/
def Obligations.LookupAgreesWithTheTables : Prop :=
  ∀ (wc : WidthClass) (key : Key),
    (∀ name, (key, name) ∈ table wc → ∃ id, lookup wc key = .ok id ∧ regName id = name) ∧
    (key ∈ keySet → ∃ name, (key, name) ∈ table wc) ∧
    (key ∉ keySet → lookup wc key = .error (.lookupFault wc key))

/-- Rule R86: 15 of the 256 keys succeed and 241 fault in each class, every key of 64 or more faults, so does every sum of a
nonzero reg-form and a nonzero rm-form value, and the class never changes which keys fault. -/
def Obligations.FifteenKeysSucceedAndTheRestFault : Prop :=
  (∀ wc : WidthClass,
    ((List.range 256).countP fun n => (lookup wc (BitVec.ofNat 8 n)).toOption.isSome) = 15 ∧
    ((List.range 256).countP fun n => (lookup wc (BitVec.ofNat 8 n)).toOption.isNone) = 241) ∧
  (∀ (wc : WidthClass) (key : Key), 64 ≤ key.toNat → lookup wc key = .error (.lookupFault wc key)) ∧
  (∀ (wc : WidthClass) (a b : Sel), a ≠ 0 → b ≠ 0 →
    lookup wc ((0#2) ++ a ++ b) = .error (.lookupFault wc ((0#2) ++ a ++ b))) ∧
  (∀ (wc wc' : WidthClass) (key : Key), (∃ f, lookup wc key = .error f) ↔ ∃ f, lookup wc' key = .error f)

/-- Rule R26 with the names of rule R25: the name of every RegId, byte registers 0 to 7 and word registers 8 to 15. -/
def Obligations.RegIdsNameTheSixteenRegisters : Prop :=
  ((List.range 16).map fun n => regName (BitVec.ofNat 4 n)) =
    ["al", "cl", "dl", "bl", "ah", "ch", "dh", "bh", "ax", "cx", "dx", "bx", "sp", "bp", "si", "di"] ∧
  (∀ (wc : WidthClass) (sel : Sel), regId wc sel = wc ++ sel ∧ (regId wc sel).extractLsb 3 3 = wc ∧
    (regId wc sel).extractLsb 2 0 = sel) ∧
  ∀ (wc : WidthClass) (key : Key) (id : RegId), lookup wc key = .ok id → ∃ sel, id = regId wc sel

/-! ## The decode -/

/-- Rule R102: the width value 1 selects the word table, 0 the byte table, and any other value raises `WidthFault` on it; on
the word's own field no value is a third one, and both operands are of the field's class. -/
def Obligations.WidthFieldSelectsOneTableForBothOperands : Prop :=
  (widthSelect 1 = .ok 1 ∧ widthSelect 0 = .ok 0 ∧
    ∀ x : BitVec 8, x ≠ 0 → x ≠ 1 → widthSelect x = .error (.widthFault x)) ∧
  ∀ instr : Word, widthSelect (byteFrames instr).wBf = .ok (instr.extractLsb 8 8) ∧
    ∀ o, iduDecode instr = .ok o →
      o.src.extractLsb 3 3 = instr.extractLsb 8 8 ∧ o.dst.extractLsb 3 3 = instr.extractLsb 8 8

/-- Rule R125: the width select's fault comes before the lookups', and the reg1 lookup's before the reg2 lookup's, each with
its own info. -/
def Obligations.FirstFaultInStepOrderIsReported : Prop :=
  ∀ f : Frames,
    (∀ e, widthSelect f.wBf = .error e → resolveFrames f = .error e) ∧
    (∀ wc, widthSelect f.wBf = .ok wc →
      (∀ e, lookup wc f.reg1Bf = .error e → resolveFrames f = .error e) ∧
      (∀ v e, lookup wc f.reg1Bf = .ok v → lookup wc f.reg2Bf = .error e → resolveFrames f = .error e)) ∧
    ∀ e, resolveFrames f = .error e →
      (e = .widthFault f.wBf ∧ f.wBf ≠ 0 ∧ f.wBf ≠ 1) ∨
      (∃ wc, widthSelect f.wBf = .ok wc ∧ e = .lookupFault wc f.reg1Bf ∧ f.reg1Bf ∉ keySet) ∨
      (∃ wc, widthSelect f.wBf = .ok wc ∧ e = .lookupFault wc f.reg2Bf ∧ f.reg1Bf ∈ keySet ∧ f.reg2Bf ∉ keySet)

/-- The byte frames whose width value and two keys are in range are exactly those that resolve: the well-formedness checks
that matter to the decode are neither too strict nor too lax (rules R85, R102, R103). -/
def Obligations.FramesResolveExactlyWhenInRange : Prop :=
  ∀ f : Frames, (f.widthOk && f.reg1Ok && f.reg2Ok) = true ↔ ∃ o, resolveFrames f = .ok o

/-- Rule R108: for every word the two keys are in `K`, the decode answers operands, and `fault` and `fault_code` are 0, while
`LookupFault` is reachable at the RTU's own port exactly with a key outside `K`. -/
def Obligations.NoWordMakesTheDecodeFault : Prop :=
  (∀ instr : Word, (byteFrames instr).reg1Bf ∈ keySet ∧ (byteFrames instr).reg2Bf ∈ keySet ∧
    (∃ o, iduDecode instr = .ok o) ∧ (iduOutputs instr).fault = 0 ∧ (iduOutputs instr).faultCode = 0) ∧
  ∀ (wc : WidthClass) (key : Key), (rtuOutputs wc key).kfault = 1 ↔ key ∉ keySet

/-- Rule R121: `fault` is 1 exactly when the decode faulted, else 0, and no word makes it 1. With the codes of rule R122:
`fault_code` is then the cause's code, else 0, the four causes have the codes 1 to 4, and a clean end has 0. -/
def Obligations.FaultSignalsCarryTheCause : Prop :=
  (∀ (instr : Word) (r : Except Fault Operands),
    ((driveIdu instr r).fault = 1 ↔ ∃ f, r = .error f) ∧ ((driveIdu instr r).fault = 0 ↔ ∃ o, r = .ok o) ∧
    (∀ f, r = .error f → (driveIdu instr r).faultCode = faultCode f) ∧
    (∀ o, r = .ok o → (driveIdu instr r).faultCode = 0)) ∧
  (∀ instr : Word, ((iduOutputs instr).fault = 1 ↔ ∃ f, iduDecode instr = .error f) ∧ (iduOutputs instr).fault ≠ 1) ∧
  (∀ (wc : WidthClass) (key : Key), faultCode (.lookupFault wc key) = 1) ∧
  (∀ x : BitVec 8, faultCode (.widthFault x) = 2) ∧ faultCode .inputUnopenable = 3 ∧
  (∀ n : Nat, faultCode (.malformedLength n) = 4) ∧ outcomeCode .clean = 0 ∧
  ∀ f : Fault, outcomeCode (.fatal f) = faultCode f

/-- Rules R104, R107: for every word the source and the destination at the ports are the registers of `{w, reg}` and
`{w, rm}`, the reg field's the destination when `d` is 1 and the source when `d` is 0, with no fault, and the text is
`mov <dst>, <src>`; and the example of rule R107. -/
def Obligations.MovDecodesToTheOperandsOfItsFields : Prop :=
  (iduDecode 0x89C1 = .ok { src := 0b1000, dst := 0b1001 } ∧ iduText 0x89C1 = .ok "mov cx, ax") ∧
  ∀ (op : BitVec 6) (d w : BitVec 1) (mod : BitVec 2) (reg rm : Sel) (instr : Word),
    instr = op ++ d ++ w ++ mod ++ reg ++ rm →
    (lookup w (byteFrames instr).reg1Bf = .ok (w ++ reg) ∧ lookup w (byteFrames instr).reg2Bf = .ok (w ++ rm)) ∧
    (d = 1 → iduDecode instr = .ok { src := w ++ rm, dst := w ++ reg } ∧
      iduText instr = .ok ("mov " ++ regName (w ++ reg) ++ ", " ++ regName (w ++ rm))) ∧
    (d = 0 → iduDecode instr = .ok { src := w ++ reg, dst := w ++ rm } ∧
      iduText instr = .ok ("mov " ++ regName (w ++ rm) ++ ", " ++ regName (w ++ reg))) ∧
    iduOutputs instr =
      { op, d, w, mod, reg, rm, srcId := if d = 1 then w ++ rm else w ++ reg
        dstId := if d = 1 then w ++ reg else w ++ rm, fault := 0, faultCode := 0 }

/-- Rule R106, and the same for the mode field: words that differ only in `op` and `mod` give the same identifiers, fault signals
and text. -/
def Obligations.OperationAndModeNeverMatter : Prop :=
  ∀ (op op' : BitVec 6) (mod mod' : BitVec 2) (d w : BitVec 1) (reg rm : Sel),
    iduText (op ++ d ++ w ++ mod ++ reg ++ rm) = iduText (op' ++ d ++ w ++ mod' ++ reg ++ rm) ∧
    iduOutputs (op ++ d ++ w ++ mod ++ reg ++ rm) =
      { iduOutputs (op' ++ d ++ w ++ mod' ++ reg ++ rm) with op := op, mod := mod }

/-- Rule R113, items 1 to 6: equal selectors give one register twice, also when both keys are 0; toggling `d` swaps the two
operands; toggling `w` flips bit 3 of both identifiers; `op` and `mod` change nothing but their own ports; and `d` = 1 makes
the reg field the destination, `d` = 0 the source. -/
def Obligations.CornerCasesOfMov : Prop :=
  (∀ (op : BitVec 6) (d w : BitVec 1) (mod : BitVec 2) (r : Sel),
    iduDecode (op ++ d ++ w ++ mod ++ r ++ r) = .ok { src := w ++ r, dst := w ++ r }) ∧
  (iduText 0xFFFF = .ok "mov di, di" ∧ iduText 0x0000 = .ok "mov al, al") ∧
  (∀ (op : BitVec 6) (d w : BitVec 1) (mod : BitVec 2),
    (byteFrames (op ++ d ++ w ++ mod ++ (0#3) ++ (0#3))).reg1Bf = 0 ∧
    (byteFrames (op ++ d ++ w ++ mod ++ (0#3) ++ (0#3))).reg2Bf = 0) ∧
  (∀ (instr : Word) (o : Operands), iduDecode instr = .ok o →
    iduDecode (instr ^^^ 0x0200) = .ok { src := o.dst, dst := o.src } ∧
    iduDecode (instr ^^^ 0x0100) = .ok { src := o.src ^^^ 0b1000, dst := o.dst ^^^ 0b1000 }) ∧
  (∀ (op op' : BitVec 6) (mod mod' : BitVec 2) (d w : BitVec 1) (reg rm : Sel),
    iduOutputs (op ++ d ++ w ++ mod ++ reg ++ rm) =
      { iduOutputs (op' ++ d ++ w ++ mod' ++ reg ++ rm) with op := op, mod := mod }) ∧
  (∀ (op : BitVec 6) (w : BitVec 1) (mod : BitVec 2) (reg rm : Sel),
    (iduOutputs (op ++ (1#1) ++ w ++ mod ++ reg ++ rm)).dstId = w ++ reg ∧
    (iduOutputs (op ++ (0#1) ++ w ++ mod ++ reg ++ rm)).srcId = w ++ reg)

/-- Rule R105: the rendered text, the mnemonic `mov` whatever the word, two-letter names, and the rule's example. -/
def Obligations.RenderWritesMovDestinationSource : Prop :=
  (∀ dst src : RegId, render dst src = "mov " ++ regName dst ++ ", " ++ regName src ∧
    (regName dst).length = 2 ∧ (regName src).length = 2) ∧
  render 0b1001 0b1000 = "mov cx, ax" ∧
  ∀ instr : Word, ∃ dst src : RegId, iduText instr = .ok ("mov " ++ regName dst ++ ", " ++ regName src)

/-- The rendered text determines both operands, destination and source each (decision D4: `Name` is a bijection onto the 16
names; rule R70). -/
def Obligations.RenderedTextDeterminesBothOperands : Prop :=
  ∀ dst src dst' src' : RegId, render dst src = render dst' src' → dst = dst' ∧ src = src'

/-- Rule R51: `Bin16` has 16 characters, each `0` or `1`, and character `i` from the left is bit `15 - i`, so
that under `FIRST_HIGH` the first 8 characters are the first byte read. -/
def Obligations.BinaryLineShowsTheBitsMostSignificantFirst : Prop :=
  (∀ v : Word, (bin16 v).length = 16 ∧
    ∀ i, i < 16 → (bin16 v).toList[i]? = some (if v.getLsbD (15 - i) then '1' else '0')) ∧
  ∀ (b0 b1 : Byte) (i : Nat), i < 8 →
    (bin16 (assemble .firstHigh b0 b1)).toList[i]? = some (if b0.getLsbD (7 - i) then '1' else '0')

/-- The second line of a word determines the word, so an output determines its whole word sequence (rules R51, R138). -/
def Obligations.BinaryLineDeterminesTheWord : Prop :=
  ∀ v v' : Word, bin16 v = bin16 v' → v = v'

/-! ## The instruction and its step -/

/-- `mov` completes from every state, with every operand: it appends exactly its two lines, advances the word index by one and
changes nothing else (rules R29, R50, R107). -/
def Obligations.MovAppendsItsTwoLinesAndAdvances : Prop :=
  (∀ (op : BitVec 6) (d w : BitVec 1) (mod : BitVec 2) (reg rm : Sel) (s : State),
    exec (.mov op d w mod reg rm) s = .next
      { s with
        k := s.k + 1
        lines := s.lines ++
          ["Decoded instruction: " ++
            (if d = 1 then render (w ++ reg) (w ++ rm) else render (w ++ rm) (w ++ reg)),
           bin16 (op ++ d ++ w ++ mod ++ reg ++ rm)] }) ∧
  ∀ (o : ByteOrder) (m : HostMode) (openable : Bool) (input : List Byte), (State.start o m openable input).lines = []

/-- The frame of `mov`: every byte of the input stream, the parameters, the source and the run's phase are unchanged, and the
lines emitted before stand. There is no register, flag, special register or memory to change (rules R28, R30, R31, R40,
R109). -/
def Obligations.MovFrame : Prop :=
  ∀ (op : BitVec 6) (d w : BitVec 1) (mod : BitVec 2) (reg rm : Sel) (s t : State),
    exec (.mov op d w mod reg rm) s = .next t →
    (∀ a, t.streamByte a = s.streamByte a) ∧ t.input = s.input ∧ t.byteOrder = s.byteOrder ∧
    t.hostMode = s.hostMode ∧ t.openable = s.openable ∧ t.phase = s.phase ∧
    ∃ l1 l2, t.lines = s.lines ++ [l1, l2]

/-- A step runs the decoded instruction: while words are presented, when the bytes at the host's place decode to an
instruction, the step is that instruction's `exec`, with nothing around it. -/
def Obligations.StepRunsTheDecodedInstruction : Prop :=
  ∀ (s : State) (i : Instr) (rest : List Byte), s.phase = .decoding →
    decode s.byteOrder (s.input.drop (2 * s.k)) = .ok (i, rest) → step s = exec i s

/-- Rule R45: with two or more unread bytes a pair is returned, the two next in stream order, and delivering its word marks
both read; with fewer it returns `End`, and the decode loop ends clean. -/
def Obligations.ReadPairTakesTwoBytesOrEnds : Prop :=
  ∀ s : State,
    (2 * s.k + 2 ≤ s.input.length → ∃ b0 b1, readPair s = some (b0, b1) ∧
      s.streamByte (2 * s.k) = some b0 ∧ s.streamByte (2 * s.k + 1) = some b1) ∧
    (s.input.length < 2 * s.k + 2 → readPair s = none ∧
      (s.phase = .decoding → ∃ t, step s = .next t ∧ observe t = some { lines := s.lines, outcome := .clean })) ∧
    ∀ (v : Word) (o : Operands), unread (deliver v (.ok o) s) = (unread s).drop 2

/-- Rule R46: word `k` is formed from bytes `2k` and `2k+1` in the machine's byte order, `FIRST_HIGH` putting the first in
bits 15..8 and `FIRST_LOW` in bits 7..0; its lines come out and `k` advances by one. `k` starts at 0 and the default order is
`FIRST_HIGH`. -/
def Obligations.WordKIsAssembledFromItsTwoBytes : Prop :=
  (∀ (s : State) (b0 b1 : Byte), s.phase = .decoding →
    s.streamByte (2 * s.k) = some b0 → s.streamByte (2 * s.k + 1) = some b1 →
    step s = .next { s with
      k := s.k + 1
      lines := s.lines ++ expectedLines (match s.byteOrder with
        | .firstHigh => b0 ++ b1
        | .firstLow => b1 ++ b0) }) ∧
  (∀ (o : ByteOrder) (m : HostMode) (openable : Bool) (input : List Byte), (State.start o m openable input).k = 0) ∧
  State.reset.byteOrder = .firstHigh

/-- The end of the stream ends the run clean with the lines as they stand, also when an odd byte is left, and whatever the
host mode is (rules R45, R48, R129). That the ending is a next state is log entry 3, and that it is a step of its own is
log entry 7. -/
def Obligations.EndOfStreamEndsTheRunClean : Prop :=
  ∀ s : State, s.phase = .decoding → s.input.length < 2 * s.k + 2 → step s = .next { s with phase := .ended .clean }

/-- Rule R126: a source that cannot be opened ends the run `Fatal(3)` with zero lines and no word decoded, whatever
its length; it is reported and the exit status is nonzero. The status itself and the report's text are free values. -/
def Obligations.UnopenableSourceIsFatalThree : Prop :=
  ∀ (o : ByteOrder) (m : HostMode) (input : List Byte), ∃ n t,
    runFor n (State.start o m false input) = .next t ∧ t.k = 0 ∧
    observe t = some { lines := [], outcome := .fatal .inputUnopenable } ∧
    outcomeCode (.fatal .inputUnopenable) = 3 ∧ exitStatus (.fatal .inputUnopenable) ≠ 0 ∧
    (report (.fatal .inputUnopenable)).isSome = true

/-- The length check: an odd length is fatal in `BATCH` mode and no error in `STREAM` mode, an even one passes in both, and no
line is emitted by the check (rules R47, R48, R127). That the fatal ending is a next state is log entry 3, and that the check
is a step of its own is log entry 7. -/
def Obligations.LengthCheckStopsOddBatchOnly : Prop :=
  ∀ s : State, s.phase = .lengthCheck →
    (s.hostMode = .batch → s.input.length % 2 ≠ 0 →
      step s = .next { s with phase := .ended (.fatal (.malformedLength s.input.length)) }) ∧
    (s.hostMode = .batch → s.input.length % 2 = 0 → step s = .next { s with phase := .decoding }) ∧
    (s.hostMode = .stream → step s = .next { s with phase := .decoding })

/-- Rule R128: a word whose decode faulted ends the run `Fatal` with its code, the earlier lines stand, it emits none, and no
number of further steps clears the fault; no word makes the decode fault, so no input meets this case. -/
def Obligations.DecodeFaultEndsTheRunForGood : Prop :=
  (∀ (s : State) (instr : Word) (f : Fault),
    observe (deliver instr (.error f) s) = some { lines := s.lines, outcome := .fatal f } ∧
    outcomeCode (.fatal f) = faultCode f ∧
    ∀ (n : Nat) (t : State), runFor n (deliver instr (.error f) s) = .next t →
      observe t = some { lines := s.lines, outcome := .fatal f }) ∧
  ∀ (instr : Word) (f : Fault), iduDecode instr ≠ .error f

/-- A run that has ended shows the same observation after any number of further steps (rule R53; that it steps to itself is
log entry 5). -/
def Obligations.EndedRunChangesNoMore : Prop :=
  ∀ (n : Nat) (s : State) (o : RunOutcome), s.phase = .ended o →
    runFor n s = .next s ∧ observe s = some { lines := s.lines, outcome := o }

/-- From every state the step answers a next state. Rules R68 and R108 give only that every word decodes and that none
faults; the rest is the model's choice: that the ending of a run, clean or fatal, is a next state (log entry 3, DEDUCED), and
that a run that has ended has a next state at all, which is itself (log entry 5, DESIGN CHOICE). -/
def Obligations.EveryStateHasANextState : Prop :=
  ∀ s : State, ∃ t, step s = .next t

/-! ## Whole runs -/

/-- Rule R142: a run starts with word index 0 and empty output, and its first word, if any, is the one formed from `B[0]` and
`B[1]`: the run comes to the point where its two lines are the output. -/
def Obligations.RunStartsAtTheFirstTwoBytes : Prop :=
  (∀ (o : ByteOrder) (m : HostMode) (openable : Bool) (input : List Byte),
    (State.start o m openable input).k = 0 ∧ (State.start o m openable input).lines = []) ∧
  (State.reset.k = 0 ∧ State.reset.lines = []) ∧
  ∀ (o : ByteOrder) (m : HostMode) (b0 b1 : Byte) (rest : List Byte), (m = .batch → rest.length % 2 = 0) →
    ∃ n t, runFor n (State.start o m true (b0 :: b1 :: rest)) = .next t ∧ t.k = 1 ∧
      t.lines = expectedLines (assemble o b0 b1)

/-- The words of a byte sequence are cut at even offsets only: word `k` is formed from bytes `2k` and `2k+1`, there are
`n / 2` of them, and no other byte is used (rules R46, R55). -/
def Obligations.WordsAreCutAtEvenOffsets : Prop :=
  ∀ (o : ByteOrder) (input : List Byte),
    (wordsOf o input).length = input.length / 2 ∧
    ∀ (k : Nat) (b0 b1 : Byte), input[2 * k]? = some b0 → input[2 * k + 1]? = some b1 →
      (wordsOf o input)[k]? = some (assemble o b0 b1)

/-- The invariant holds at reset and at the start of every run. -/
def Obligations.InvariantHoldsAtReset : Prop :=
  State.reset.Inv ∧
  ∀ (o : ByteOrder) (m : HostMode) (openable : Bool) (input : List Byte), (State.start o m openable input).Inv

/-- Every step from a state with the invariant keeps it: the word index stays within the stream, the output is exactly the two
lines the spec gives each word before it in stream order, the phase keeps its promise, and no run ends on a decode fault
(rules R47, R48, R50, R52, R53, R108, R130). -/
def Obligations.EveryStepKeepsTheInvariant : Prop :=
  ∀ s s' : State, s.Inv → step s = .next s' → s'.Inv

/-- The machine does what the spec expects of a whole run, for every input, byte order, host mode and source: the run ends,
and its observation is the expected one (rules R47 to R53, R127, R129, R130). -/
def Obligations.EveryRunEndsWithTheExpectedObservation : Prop :=
  ∀ (o : ByteOrder) (m : HostMode) (openable : Bool) (input : List Byte),
    ∃ n t, runFor n (State.start o m openable input) = .next t ∧
      observe t = some (expectedRun o m openable input)

/-- The output only grows, and in stream order: over any number of steps from any state, what is added is the two lines of
each word passed, from the word at the place the steps began to the word before the place they ended (rule R52). -/
def Obligations.LinesAreAddedInStreamOrder : Prop :=
  ∀ (n : Nat) (s t : State), runFor n s = .next t →
    s.k ≤ t.k ∧
    t.lines = s.lines ++ (((wordsOf s.byteOrder s.input).drop s.k).take (t.k - s.k)).flatMap expectedLines

/-- The byte order cannot be switched during a run, and nothing writes the input stream: over any number of steps the
parameters, the source and every byte of the stream stay (rules R54, R56, R59). -/
def Obligations.ParametersAndInputNeverChange : Prop :=
  ∀ (n : Nat) (s t : State), runFor n s = .next t →
    t.byteOrder = s.byteOrder ∧ t.hostMode = s.hostMode ∧ t.openable = s.openable ∧
    ∀ a, t.streamByte a = s.streamByte a

/-- A run ends because its input is finite: from every state the run has ended after as many steps as there are undecoded
words and three more, and it has decoded at most `n / 2` words (rule R146). The three more are the model's two boot steps and
the step that finds the end (log entry 7), and a run that ends earlier steps to itself for the rest (log entry 5). -/
def Obligations.EveryRunEndsInBoundedSteps : Prop :=
  ∀ s : State, ∃ t o, runFor (s.input.length / 2 - s.k + 3) s = .next t ∧ t.phase = .ended o ∧
    t.k ≤ max s.k (s.input.length / 2)

/-- The decode of a word depends on no other word: two states that present the same two bytes in the same byte order, whatever
the rest of the stream, the place in it and the output are, add the same lines (rules R20, R22, R33). -/
def Obligations.DecodeDependsOnNoOtherWord : Prop :=
  ∀ (s1 s2 : State) (b0 b1 : Byte), s1.phase = .decoding → s2.phase = .decoding → s1.byteOrder = s2.byteOrder →
    readPair s1 = some (b0, b1) → readPair s2 = some (b0, b1) →
    ∃ t1 t2 ls, step s1 = .next t1 ∧ step s2 = .next t2 ∧ t1.lines = s1.lines ++ ls ∧ t2.lines = s2.lines ++ ls

/-- The two host modes differ only for odd lengths (rules R47, R48; decision D10): over an even input they run in step, state
for state. The spec gives the equal outcomes; that the runs go in step is the model's choice, since it makes the length check
a step in `STREAM` mode too, which checks nothing (log entry 7), and an ended run steps to itself in both (log entry 5). -/
def Obligations.HostModesAgreeOnEvenLengths : Prop :=
  ∀ (n : Nat) (o : ByteOrder) (openable : Bool) (input : List Byte) (t : State), input.length % 2 = 0 →
    runFor n (State.start o .batch openable input) = .next t →
    runFor n (State.start o .stream openable input) = .next { t with hostMode := .stream }

/-! ## Other realisations -/

/-- A realisation with registered outputs: for every latency, what comes out is, in the order of the words and each beside its
own word, what the combinational IDU gives (rules R57, R145; the delay line is the model's choice, log entry 9). -/
def Obligations.RegisteredOutputsPairEachWordWithItsResult : Prop :=
  ∀ (n : Nat) (ws : List Word),
    drivePipe (Pipe.empty n) (ws.map some ++ List.replicate n none) =
      List.replicate n none ++ ws.map fun v => some (v, iduOutputs v)

/-- Decoding several words at once and delivering the results in order ends in the state that stepping word by word ends in
(rules R52, R57, R137; the realisation is the model's choice, log entry 9, and so is one word a step, log entry 7). -/
def Obligations.DecodingTogetherAgreesWithStepping : Prop :=
  ∀ (m : Nat) (s : State), s.phase = .decoding → s.k + m ≤ s.input.length / 2 →
    runFor m s = .next (deliverAll (decodeTogether (((wordsOf s.byteOrder s.input).drop s.k).take m)) s)
end

