-- ==== Sys2Proof/Laws/Operands.lean ====
section
/-! SUPPORT. What the shared operations of operand resolution can do, said once each. -/

namespace Sys2Proof.Machine

/-- A lookup names a register of the class it was asked for, or faults with its own class and key. -/
theorem lookup_cases (wc : WidthClass) (key : Key) :
    (∃ sel : Sel, lookup wc key = .ok (regId wc sel)) ∨ lookup wc key = .error (.lookupFault wc key) := by
  unfold lookup
  split
  · exact .inl ⟨_, rfl⟩
  · split
    · exact .inl ⟨_, rfl⟩
    · exact .inr rfl

theorem lookup_error {wc : WidthClass} {key : Key} {f : Fault} (h : lookup wc key = .error f) :
    f = .lookupFault wc key := by
  obtain ⟨sel, hs⟩ | hs := lookup_cases wc key <;> simp_all

/-- The width select gives a class exactly as the width value says, or faults with the value. -/
theorem widthSelect_cases (x : BitVec 8) :
    (x = 1 ∧ widthSelect x = .ok 1) ∨ (x = 0 ∧ widthSelect x = .ok 0) ∨
      (x ≠ 1 ∧ x ≠ 0 ∧ widthSelect x = .error (.widthFault x)) := by
  unfold widthSelect
  split
  · exact .inl ⟨‹_›, rfl⟩
  · split
    · exact .inr (.inl ⟨‹_›, rfl⟩)
    · exact .inr (.inr ⟨‹_›, ‹_›, rfl⟩)

/-- A resolution that answers operands went through all three of its parts. -/
theorem resolveFrames_ok {f : Frames} {o : Operands} (h : resolveFrames f = .ok o) :
    ∃ wc v1 v2, widthSelect f.wBf = .ok wc ∧ lookup wc f.reg1Bf = .ok v1 ∧ lookup wc f.reg2Bf = .ok v2 ∧
      o = tieBreak f.dirBf v1 v2 := by
  unfold resolveFrames at h
  split at h
  · cases h
  · split at h
    · cases h
    · split at h
      · cases h
      · exact ⟨_, _, _, ‹_›, ‹_›, ‹_›, by simpa using h.symm⟩

/-- A resolution that faults does so with a fault of the core. -/
theorem resolveFrames_error {f : Frames} {e : Fault} (h : resolveFrames f = .error e) :
    e = .widthFault f.wBf ∨ ∃ wc, e = .lookupFault wc f.reg1Bf ∨ e = .lookupFault wc f.reg2Bf := by
  unfold resolveFrames at h
  split at h
  · obtain ⟨_, hw⟩ | ⟨_, hw⟩ | ⟨_, _, hw⟩ := widthSelect_cases f.wBf <;> simp_all
  · split at h
    · rename_i wc _ _ _ hl
      exact .inr ⟨wc, .inl (lookup_error (hl.trans (by simpa using h)))⟩
    · split at h
      · rename_i wc _ _ _ _ _ _ hl
        exact .inr ⟨wc, .inr (lookup_error (hl.trans (by simpa using h)))⟩
      · cases h

/-- The two identifiers that the IDU drives, when the decode did not fault. -/
theorem driveIdu_ok (instr : Word) (o : Operands) :
    (driveIdu instr (.ok o)).srcId = o.src ∧ (driveIdu instr (.ok o)).dstId = o.dst := ⟨rfl, rfl⟩

end Sys2Proof.Machine
end

