-- ==== Sys2Proof/Laws/State.lean ====
section
/-! SUPPORT. One lemma per field per update of State, so that no proof unfolds a record update. -/

namespace Sys2Proof.Machine

variable (s : State) (p : Phase) (ls : List String)

@[simp] theorem setPhase_byteOrder : (s.setPhase p).byteOrder = s.byteOrder := rfl
@[simp] theorem setPhase_hostMode : (s.setPhase p).hostMode = s.hostMode := rfl
@[simp] theorem setPhase_openable : (s.setPhase p).openable = s.openable := rfl
@[simp] theorem setPhase_input : (s.setPhase p).input = s.input := rfl
@[simp] theorem setPhase_phase : (s.setPhase p).phase = p := rfl
@[simp] theorem setPhase_k : (s.setPhase p).k = s.k := rfl
@[simp] theorem setPhase_lines : (s.setPhase p).lines = s.lines := rfl

@[simp] theorem emit_byteOrder : (s.emit ls).byteOrder = s.byteOrder := rfl
@[simp] theorem emit_hostMode : (s.emit ls).hostMode = s.hostMode := rfl
@[simp] theorem emit_openable : (s.emit ls).openable = s.openable := rfl
@[simp] theorem emit_input : (s.emit ls).input = s.input := rfl
@[simp] theorem emit_phase : (s.emit ls).phase = s.phase := rfl
@[simp] theorem emit_k : (s.emit ls).k = s.k := rfl
@[simp] theorem emit_lines : (s.emit ls).lines = s.lines ++ ls := rfl

@[simp] theorem advance_byteOrder : s.advance.byteOrder = s.byteOrder := rfl
@[simp] theorem advance_hostMode : s.advance.hostMode = s.hostMode := rfl
@[simp] theorem advance_openable : s.advance.openable = s.openable := rfl
@[simp] theorem advance_input : s.advance.input = s.input := rfl
@[simp] theorem advance_phase : s.advance.phase = s.phase := rfl
@[simp] theorem advance_k : s.advance.k = s.k + 1 := rfl
@[simp] theorem advance_lines : s.advance.lines = s.lines := rfl

end Sys2Proof.Machine
end

