-- ==== Sys2Proof/Laws/Ops.lean ====
section
/-! SUPPORT. What each shared operation of the host can do, said once. -/

namespace Sys2Proof.Machine

theorem openSource_cases (s : State) :
    (s.openable = true ∧ openSource s = s.setPhase .lengthCheck) ∨
      (s.openable = false ∧ openSource s = takeFault .inputUnopenable s) := by
  unfold openSource
  cases h : s.openable <;> simp

theorem checkLength_cases (s : State) :
    (s.input.length % 2 = 1 ∧ s.hostMode = .batch ∧ checkLength s = takeFault (.malformedLength s.input.length) s) ∨
      ((s.hostMode = .batch → s.input.length % 2 = 0) ∧ checkLength s = s.setPhase .decoding) := by
  unfold checkLength
  obtain hn | hn := Nat.mod_two_eq_zero_or_one s.input.length <;> cases hm : s.hostMode <;> simp [hn]

theorem deliver_ok (v : Word) (o : Operands) (s : State) :
    deliver v (.ok o) s = (s.emit (wordLines v o)).advance := rfl

theorem deliver_error (v : Word) (f : Fault) (s : State) : deliver v (.error f) s = takeFault f s := rfl

/-- A delivery either emits two lines and advances by one word, or ends the run on the fault. -/
theorem deliver_cases (v : Word) (r : Except Fault Operands) (s : State) :
    (∃ o, r = .ok o ∧ deliver v r s = (s.emit (wordLines v o)).advance) ∨
      ∃ f, r = .error f ∧ deliver v r s = takeFault f s := by
  cases r with
  | ok o => exact .inl ⟨o, rfl, rfl⟩
  | error f => exact .inr ⟨f, rfl, rfl⟩

theorem takeFault_eq (f : Fault) (s : State) : takeFault f s = s.setPhase (.ended (.fatal f)) := rfl

theorem endOfStream_eq (s : State) : endOfStream s = s.setPhase (.ended .clean) := rfl

end Sys2Proof.Machine
end

