-- ==== Sys2Proof/Laws/PerInstr.lean ====
section
/-! SUPPORT. Laws about the instruction as syntax, one lemma per constructor of Instr. -/

/-- Every instruction is two bytes in either byte order (rules R60, R69). -/
def Sys2Proof.Laws.EncodedLength.Statement (i : Sys2Proof.Instr) : Prop :=
  ∀ o, (Sys2Proof.encode o i).length = 2

theorem Sys2Proof.Laws.EncodedLength.mov (op : BitVec 6) (d w : BitVec 1) (mod : BitVec 2) (reg rm : Sys2Proof.Sel) :
    Sys2Proof.Laws.EncodedLength.Statement (.mov op d w mod reg rm) := by
  intro o
  cases o <;> rfl
end

