-- ==== Sys2Proof/Laws/Stream.lean ====
section
/-! SUPPORT. The input stream: reading a pair, and the placing of a word from outside. There is no memory, and no
instruction writes the stream (rules R40, R59), so there is no other write to say anything about. -/

namespace Sys2Proof.Machine

theorem readPair_eq_some {s : State} {b0 b1 : Byte} :
    readPair s = some (b0, b1) ↔ ∃ rest, unread s = b0 :: b1 :: rest := by
  unfold readPair
  split
  · rename_i c0 c1 rest h
    simp only [h, Option.some.injEq, Prod.mk.injEq, List.cons.injEq]
    exact ⟨fun ⟨h0, h1⟩ => ⟨rest, h0, h1, rfl⟩, fun ⟨_, h0, h1, _⟩ => ⟨h0, h1⟩⟩
  · rename_i h
    simp only [reduceCtorEq, false_iff]
    rintro ⟨rest, hr⟩
    exact h _ _ _ hr

theorem readPair_eq_none {s : State} : readPair s = none ↔ s.input.length < 2 * s.k + 2 := by
  have hl : (unread s).length = s.input.length - 2 * s.k := by simp [unread]
  unfold readPair
  split
  · rename_i h
    simp only [h, List.length_cons] at hl
    simp only [reduceCtorEq, false_iff]
    omega
  · rename_i h
    have : (unread s).length < 2 := by
      match hu : unread s with
      | [] => simp
      | [_] => simp
      | b0 :: b1 :: rest => exact absurd hu (h b0 b1 rest)
    simp only [true_iff]
    omega

/-- A fetch decodes the assembled pair, or finds the end of the stream. -/
theorem fetch_of_readPair {s : State} {b0 b1 : Byte} (h : readPair s = some (b0, b1)) :
    fetch s = some (decodeWord (assemble s.byteOrder b0 b1)) := by
  simp [fetch, h, decode]

theorem fetch_of_end {s : State} (h : readPair s = none) : fetch s = none := by
  simp [fetch, h]

@[simp] theorem wordBytes_length (o : ByteOrder) (v : Word) : (wordBytes o v).length = 2 := by
  cases o <;> rfl

/-- What was placed is what is read back from the offset on. -/
theorem drop_placeAt (off : Nat) (bs input : List Byte) :
    (placeAt off bs input).drop off = bs ++ input.drop (off + bs.length) := by
  have hl : ((input ++ List.replicate (off - input.length) 0).take off).length = off := by
    simp only [List.length_take, List.length_append, List.length_replicate]
    omega
  unfold placeAt
  rw [List.append_assoc, List.drop_append_of_le_length (by omega), List.drop_of_length_le (by omega), List.nil_append]

theorem unread_withFetchWord (s : State) (nbits w : Nat) :
    ∃ rest, unread (s.withFetchWord nbits w) = wordBytes s.byteOrder (tableWord nbits w) ++ rest :=
  ⟨_, drop_placeAt _ _ _⟩

end Sys2Proof.Machine
end

