-- ==== Sys2Proof/Laws/Step.lean ====
section
/-! SUPPORT. What one step can do, said once, and runs of several steps. -/

namespace Sys2Proof.Machine

/-- The word of the instruction a pair of bytes is, as the meaning of `mov` sees it. -/
def pairWord (s : State) (b0 b1 : Byte) : Word := encodeWord (decodeWord (assemble s.byteOrder b0 b1))

/-- The inversion of the step: one case for each action of the host. -/
theorem step_cases {s s' : State} (h : step s = .next s') :
    (s.phase = .opening ∧ s' = openSource s) ∨
    (s.phase = .lengthCheck ∧ s' = checkLength s) ∨
    (s.phase = .decoding ∧ ∃ b0 b1, readPair s = some (b0, b1) ∧
      s' = deliver (pairWord s b0 b1) (iduDecode (pairWord s b0 b1)) s) ∨
    (s.phase = .decoding ∧ readPair s = none ∧ s' = endOfStream s) ∨
    (∃ o, s.phase = .ended o ∧ s' = s) := by
  unfold step at h
  split at h
  · exact .inl ⟨‹_›, by simpa using h.symm⟩
  · exact .inr (.inl ⟨‹_›, by simpa using h.symm⟩)
  · rename_i hp
    match hr : readPair s with
    | none =>
      rw [fetch_of_end hr] at h
      exact .inr (.inr (.inr (.inl ⟨hp, rfl, by simpa using h.symm⟩)))
    | some (b0, b1) =>
      rw [fetch_of_readPair hr] at h
      exact .inr (.inr (.inl ⟨hp, b0, b1, rfl, by simpa [pairWord, decodeWord, exec, execMov] using h.symm⟩))
  · exact .inr (.inr (.inr (.inr ⟨_, ‹_›, by simpa [afterEnd] using h.symm⟩)))

/-- A run of this model is a run of the machine behind the host's interface. -/
theorem runFor_eq_core_run (n : Nat) (s : State) : runFor n s = Sys2Proof.core.run n s := by
  induction n generalizing s with
  | zero => rfl
  | succ n ih =>
    have he : Sys2Proof.core.step s = step s := rfl
    simp only [runFor, Host.Core.run, he]
    cases step s with
    | next s' => exact ih s'
    | fault f => rfl
    | refused r => rfl

/-- A run cut in two. -/
theorem runFor_add {m n : Nat} {s t : State} (h : runFor m s = .next t) : runFor (m + n) s = runFor n t := by
  induction m generalizing s with
  | zero => simp_all [runFor]
  | succ m ih =>
    rw [Nat.succ_add]
    simp only [runFor] at h ⊢
    cases hs : step s with
    | next s' => simp only [hs] at h ⊢; exact ih h
    | fault f => simp [hs] at h
    | refused r => simp [hs] at h

end Sys2Proof.Machine
end

