-- ==== Sys2Proof/Tests/Slice0.lean ====
section
/-! SUPPORT. The model's own tests. Expected values are the spec's: the source's examples S2 to S7 and the derived vectors V-*
of spec/95_test_vectors.md, and the words written out from format `F16`. The witnesses show that the hypotheses of the
obligations can be met. -/

namespace Sys2Proof.Machine.Tests

open Sys2Proof Sys2Proof.Machine

/-! ## WellFormed: an ill-formed byte frame for each check -/

def goodFrames : Frames := { opBf := 0x88, dirBf := 0, wBf := 1, modBf := 0xC0, reg1Bf := 24, reg2Bf := 1 }

theorem test_good_frames_pass : goodFrames.wellFormed = true := by decide
theorem test_width_two_refused : ({ goodFrames with wBf := 2 } : Frames).wellFormed = false := by decide
theorem test_direction_one_refused : ({ goodFrames with dirBf := 1 } : Frames).wellFormed = false := by decide
theorem test_reg1_key_nine_refused : ({ goodFrames with reg1Bf := 9 } : Frames).wellFormed = false := by decide
theorem test_reg2_key_sixty_four_refused : ({ goodFrames with reg2Bf := 64 } : Frames).wellFormed = false := by decide
theorem test_operation_low_bits_refused : ({ goodFrames with opBf := 0x89 } : Frames).wellFormed = false := by decide
theorem test_mode_low_bits_refused : ({ goodFrames with modBf := 0xC1 } : Frames).wellFormed = false := by decide

/-! ## Decode: words written out bit by bit from rule R61, `op d w mod reg rm` -/

theorem test_decode_mov_cx_ax : decodeWord 0b100010_0_1_11_000_001 = .mov 0b100010 0 1 0b11 0b000 0b001 := by decide
theorem test_decode_mixed_fields : decodeWord 0b000100_1_0_00_110_100 = .mov 0b000100 1 0 0b00 0b110 0b100 := by decide
theorem test_encode_mixed_fields : encodeWord (.mov 0b101001 0 1 0b10 0b100 0b101) = 0xA5A5 := by decide
theorem test_decode_rejects_one_byte : decode .firstHigh [0x89] = .error (.shortRead 1) := by decide
theorem test_decode_table_word : decodeTableWord 16 0x89C1 = some (.mov 0b100010 0 1 0b11 0 1) := by decide

/-- V-A1 and V-A2. -/
theorem test_word_assembly : assemble .firstHigh 0x89 0xD9 = 0x89D9 ∧ assemble .firstLow 0x89 0xD9 = 0xD989 := by decide

/-- V-F1 to V-F6. -/
theorem test_byte_frames :
    byteFrames 0x0000 = ⟨0x00, 0x00, 0x00, 0x00, 0, 0⟩ ∧ byteFrames 0xFFFF = ⟨0xFC, 0x02, 0x01, 0xC0, 56, 7⟩ ∧
    byteFrames 0xA5A5 = ⟨0xA4, 0x00, 0x01, 0x80, 32, 5⟩ ∧ byteFrames 0x5A5A = ⟨0x58, 0x02, 0x00, 0x40, 24, 2⟩ ∧
    byteFrames 0x89D9 = ⟨0x88, 0x00, 0x01, 0xC0, 24, 1⟩ ∧ byteFrames 0x1234 = ⟨0x10, 0x02, 0x00, 0x00, 48, 4⟩ := by
  decide

/-! ## The two units -/

/-- V-K and rule R88: successes and faults at the RTU's port. -/
theorem test_lookup :
    lookup 1 24 = .ok 0b1011 ∧ lookup 0 4 = .ok 0b0100 ∧ lookup 0 0 = .ok 0 ∧ lookup 1 56 = .ok 0b1111 ∧
    ∀ key ∈ ([9, 15, 57, 63, 64, 72, 128, 255] : List Key),
      lookup 1 key = .error (.lookupFault 1 key) ∧ lookup 0 key = .error (.lookupFault 0 key) := by
  decide

/-- FLAG, as the source asks (C5): the first two, V-D1 and V-D2, follow the stated mapping, by which `d` = 1 makes the reg field
the destination, although the source calls it not the conventional one.
S2, S3, S4, V-D3, V-D4, V-W1, V-W3, V-W4, V-W5, V-S1 to V-S3, V-L1 to V-L3c. -/
theorem test_decoded_texts :
    [0x89C1, 0x8BC1, 0x88C3, 0x8AC3, 0x89D9, 0x8BDE, 0x89C3, 0x88E5, 0x8AC8, 0x89E7, 0xFFFF, 0x0000, 0x8A24,
     0x01C1, 0xFCC1, 0x8901, 0x8907, 0xA5A5, 0x5A5A, 0x1234].map (fun v => (iduText (BitVec.ofNat 16 v)).toOption) =
    ["mov cx, ax", "mov ax, cx", "mov bl, al", "mov al, bl", "mov cx, bx", "mov bx, si", "mov bx, ax", "mov ch, ah",
     "mov cl, al", "mov di, sp", "mov di, di", "mov al, al", "mov ah, ah", "mov cx, ax", "mov cl, al", "mov cx, ax",
     "mov di, ax", "mov bp, sp", "mov bl, dl", "mov dh, ah"].map some := by
  decide

/-- V-D1 at the ports. -/
theorem test_idu_ports :
    iduOutputs 0x89C1 = { op := 0b100010, d := 0, w := 1, mod := 0b11, reg := 0, rm := 1, srcId := 0b1000
                          dstId := 0b1001, fault := 0, faultCode := 0 } := by
  decide

/-- V-R3 to V-R5. -/
theorem test_bin16 :
    bin16 0x89D9 = "1000100111011001" ∧ bin16 0x0000 = "0000000000000000" ∧ bin16 0xA5A5 = "1010010110100101" := by
  decide

/-- Rule R124: a third width value is a fault, never empty operands; rule R125: it comes before a key's. -/
theorem test_width_fault_first :
    resolveFrames { goodFrames with wBf := 2, reg1Bf := 9 } = .error (.widthFault 2) ∧
    resolveFrames { goodFrames with reg1Bf := 9, reg2Bf := 64 } = .error (.lookupFault 1 9) := by
  decide

/-! ## One step -/

/-- A state that presents words, at the given place in the given stream. -/
def presenting (o : ByteOrder) (m : HostMode) (input : List Byte) (k : Nat) : State :=
  { State.start o m true input with phase := .decoding, k := k }

/-- The state a step answers. -/
def after (r : Host.Outcome State Fault Refusal) : Option State :=
  match r with
  | .next t => some t
  | _ => none

/-- S5: the two lines of one word. -/
theorem test_step_emits_two_lines :
    (after (step (presenting .firstHigh .batch [0x89, 0xC1] 0))).map (fun t => (t.k, t.lines)) =
      some (1, ["Decoded instruction: mov cx, ax", "1000100111000001"]) := by
  decide

/-- P5, second word: the other byte order. -/
theorem test_step_first_low :
    (after (step (presenting .firstLow .stream [0x89, 0xD9, 0x88, 0xE5] 1))).map (fun t => (t.k, t.lines)) =
      some (2, ["Decoded instruction: mov ax, cx", "1110010110001000"]) := by
  decide

/-- S6 and V-H3: an odd length in `BATCH` mode. -/
theorem test_batch_odd_is_fatal :
    (after (step ((State.start .firstHigh .batch true [0x89]).setPhase .lengthCheck))).bind observe = some { lines := [], outcome := .fatal (.malformedLength 1) } := by
  decide

/-- V-H4: the same byte in `STREAM` mode ends clean. -/
theorem test_stream_odd_is_clean :
    (after (step (presenting .firstHigh .stream [0x89] 0))).bind observe = some { lines := [], outcome := .clean } := by
  decide

/-- V-H5: a source that cannot be opened. -/
theorem test_unopenable_is_fatal :
    (after (step (State.start .firstHigh .stream false []))).bind observe =
      some { lines := [], outcome := .fatal .inputUnopenable } := by
  decide

/-- A word placed after reset is the first instruction the machine runs. -/
theorem test_placed_word_runs_after_reset :
    (after (step (State.reset.withFetchWord 16 0x8BDE))).map (fun t => (t.k, t.lines)) =
      some (1, ["Decoded instruction: mov bx, si", "1000101111011110"]) := by
  decide

/-! ## Witnesses: each shows values that meet the hypotheses of the obligation it is named after -/

theorem witness_ByteFrameValuesAreFieldsInPlace :
    (0x89D9 : Word) = (0b100010 : BitVec 6) ++ (0 : BitVec 1) ++ (1 : BitVec 1) ++ (0b11 : BitVec 2) ++ (3 : Sel) ++ (1 : Sel) ∧
    widthSelect goodFrames.wBf = .ok 1 ∧ lookup 1 goodFrames.reg1Bf = .ok 0b1011 ∧
    lookup 1 goodFrames.reg2Bf = .ok 0b1001 := by decide

theorem witness_EveryPairOfBytesIsExactlyOneInstruction :
    encode .firstLow (.mov 0b100010 0 1 0b11 3 1) = [0xD9, 0x89] := by decide

theorem witness_PlacedTableWordIsTheInstructionRunNext : 65535 < 65536 := by decide

/-- Each of the three branches at the edges of its range. -/
theorem witness_LookupFollowsItsThreeBranches :
    ((7 : Key).extractLsb 7 3 = 0) ∧
    ((8 : Key).extractLsb 7 3 ≠ 0 ∧ (8 : Key).extractLsb 7 6 = 0 ∧ (8 : Key).extractLsb 2 0 = 0) ∧
    ((56 : Key).extractLsb 7 3 ≠ 0 ∧ (56 : Key).extractLsb 7 6 = 0 ∧ (56 : Key).extractLsb 2 0 = 0) ∧
    ((9 : Key).extractLsb 7 3 ≠ 0 ∧ ¬((9 : Key).extractLsb 7 6 = 0 ∧ (9 : Key).extractLsb 2 0 = 0)) ∧
    ((64 : Key).extractLsb 7 3 ≠ 0 ∧ ¬((64 : Key).extractLsb 7 6 = 0 ∧ (64 : Key).extractLsb 2 0 = 0)) ∧
    lookup 0 56 = .ok 7 ∧ lookup 0 57 = .error (.lookupFault 0 57) := by decide

theorem witness_LookupAgreesWithTheTables :
    ((24 : Key), "bx") ∈ table 1 ∧ (56 : Key) ∈ keySet ∧ (57 : Key) ∉ keySet := by decide

theorem witness_FifteenKeysSucceedAndTheRestFault :
    64 ≤ (64 : Key).toNat ∧ 64 ≤ (255 : Key).toNat ∧ (7 : Sel) ≠ 0 := by decide

theorem witness_RegIdsNameTheSixteenRegisters : lookup 1 24 = .ok (regId 1 3) := by decide

theorem witness_WidthFieldSelectsOneTableForBothOperands :
    (2 : BitVec 8) ≠ 0 ∧ (2 : BitVec 8) ≠ 1 ∧ iduDecode 0x89C1 = .ok { src := 0b1000, dst := 0b1001 } := by decide

/-- One frame for each fault, and one that passes the earlier checks each time. -/
theorem witness_FirstFaultInStepOrderIsReported :
    widthSelect 2 = .error (.widthFault 2) ∧ widthSelect 0 = .ok 0 ∧ lookup 0 9 = .error (.lookupFault 0 9) ∧
    lookup 0 8 = .ok 1 ∧
    resolveFrames { goodFrames with wBf := 2 } = .error (.widthFault 2) ∧
    resolveFrames { goodFrames with reg2Bf := 64 } = .error (.lookupFault 1 64) := by decide

theorem witness_MovDecodesToTheOperandsOfItsFields :
    (0x8BC1 : Word) = (0b100010 : BitVec 6) ++ (1 : BitVec 1) ++ (1 : BitVec 1) ++ (0b11 : BitVec 2) ++ (0 : Sel) ++ (1 : Sel) := by
  decide

theorem witness_CornerCasesOfMov : iduDecode 0xFCC1 = .ok { src := 0, dst := 1 } := by decide

theorem witness_RenderedTextDeterminesBothOperands : render 0b1001 0b1000 = render 0b1001 0b1000 := rfl

theorem witness_BinaryLineShowsTheBitsMostSignificantFirst : 15 < 16 ∧ 7 < 8 := by decide

theorem witness_BinaryLineDeterminesTheWord : bin16 0x89D9 = bin16 0x89D9 := rfl

theorem witness_MovFrame :
    ∃ t, exec (.mov 0b100010 0 1 0b11 0 1) (presenting .firstHigh .stream [0x89, 0xC1] 0) = .next t := ⟨_, rfl⟩

theorem witness_StepRunsTheDecodedInstruction :
    (presenting .firstHigh .stream [0x89, 0xC1, 0xFF] 0).phase = .decoding ∧
    decode .firstHigh [0x89, 0xC1, 0xFF] = .ok (.mov 0b100010 0 1 0b11 0 1, [0xFF]) := by decide

/-- The last whole pair, and one byte less. -/
theorem witness_ReadPairTakesTwoBytesOrEnds :
    2 * 1 + 2 ≤ (presenting .firstHigh .stream [0, 0, 0x89, 0xC1] 1).input.length ∧
    (presenting .firstHigh .stream [0, 0, 0x89] 1).input.length < 2 * 1 + 2 ∧
    (presenting .firstHigh .stream [0, 0, 0x89] 1).phase = .decoding := by decide

theorem witness_WordKIsAssembledFromItsTwoBytes :
    (presenting .firstLow .stream [0, 0, 0x89, 0xD9] 1).phase = .decoding ∧
    (presenting .firstLow .stream [0, 0, 0x89, 0xD9] 1).streamByte (2 * 1) = some 0x89 ∧
    (presenting .firstLow .stream [0, 0, 0x89, 0xD9] 1).streamByte (2 * 1 + 1) = some 0xD9 := by decide

theorem witness_EndOfStreamEndsTheRunClean :
    (presenting .firstHigh .stream [0x8B, 0xDE, 0x8A] 1).phase = .decoding ∧
    (presenting .firstHigh .stream [0x8B, 0xDE, 0x8A] 1).input.length < 2 * 1 + 2 := by decide

/-- A state for each of the three clauses, at the lengths 0 and 1. -/
theorem witness_LengthCheckStopsOddBatchOnly :
    ((State.start .firstHigh .batch true [0x89]).setPhase .lengthCheck).phase = .lengthCheck ∧
    (State.start .firstHigh .batch true [0x89]).hostMode = .batch ∧
    (State.start .firstHigh .batch true [0x89]).input.length % 2 ≠ 0 ∧
    (State.start .firstHigh .batch true []).input.length % 2 = 0 ∧
    (State.start .firstHigh .stream true [0x89]).hostMode = .stream := by decide

theorem witness_DecodeFaultEndsTheRunForGood :
    runFor 2 (deliver 0x89C1 (.error (.lookupFault 1 9)) (presenting .firstHigh .stream [0x89, 0xC1] 0)) =
      .next (takeFault (.lookupFault 1 9) (presenting .firstHigh .stream [0x89, 0xC1] 0)) := rfl

theorem witness_EndedRunChangesNoMore : (endRun .clean State.reset).phase = .ended .clean := rfl

theorem witness_RunStartsAtTheFirstTwoBytes : ([0xFF, 0xFF] : List Byte).length % 2 = 0 := by decide

theorem witness_WordsAreCutAtEvenOffsets :
    ([0, 0, 0x89, 0xC1, 0xFF] : List Byte)[2 * 1]? = some 0x89 ∧
    ([0, 0, 0x89, 0xC1, 0xFF] : List Byte)[2 * 1 + 1]? = some 0xC1 := by decide

/-- A state in the middle of a run, with one word behind it and one before it. -/
def midRun : State :=
  { presenting .firstHigh .batch [0x8B, 0xDE, 0x89, 0xC1] 1 with
    lines := ["Decoded instruction: mov bx, si", "1000101111011110"] }

theorem witness_EveryStepKeepsTheInvariant : midRun.Inv ∧ ∃ t, step midRun = .next t :=
  ⟨⟨by decide, by decide, ⟨rfl, fun _ => by decide⟩⟩, ⟨_, rfl⟩⟩

theorem witness_LinesAreAddedInStreamOrder : ∃ t, runFor 2 midRun = .next t := ⟨_, rfl⟩

theorem witness_ParametersAndInputNeverChange : ∃ t, runFor 1 midRun = .next t := ⟨_, rfl⟩

/-- Two states at different places of different streams that present the same pair. -/
theorem witness_DecodeDependsOnNoOtherWord :
    midRun.phase = .decoding ∧ (presenting .firstHigh .stream [0x89, 0xC1, 0x00] 0).phase = .decoding ∧
    midRun.byteOrder = (presenting .firstHigh .stream [0x89, 0xC1, 0x00] 0).byteOrder ∧
    readPair midRun = some (0x89, 0xC1) ∧
    readPair (presenting .firstHigh .stream [0x89, 0xC1, 0x00] 0) = some (0x89, 0xC1) := by decide

theorem witness_HostModesAgreeOnEvenLengths :
    ([0x89, 0xC1] : List Byte).length % 2 = 0 ∧
    ∃ t, runFor 3 (State.start .firstHigh .batch true [0x89, 0xC1]) = .next t := ⟨by decide, ⟨_, rfl⟩⟩

theorem witness_DecodingTogetherAgreesWithStepping :
    midRun.phase = .decoding ∧ midRun.k + 1 ≤ midRun.input.length / 2 := by decide

end Sys2Proof.Machine.Tests
end

