-- ==== Sys2Proof/Proofs/DecodeOutcome.lean ====
section
/-! SUPPORT. What the decode of a word answers and what its delivery does, in the terms of Safety.lean: a word's byte
frames are its fields in place, so the width select and both lookups answer and no word faults (rules R63, R84, R102 to
R104, R108), and the two lines are the expected ones (rule R50). -/

namespace Sys2Proof.Machine

/-- The masks of rule R63 put each field of a word at its own place with zeros beside it. -/
theorem byteFrames_eq_frames (v : Word) : byteFrames v = (decodeWord v).frames := by
  simp only [byteFrames, decodeWord, Instr.frames, Frames.mk.injEq]
  refine ⟨?_, ?_, ?_, ?_, ?_, ?_⟩ <;>
  · refine BitVec.eq_of_getLsbD_eq fun i hi => ?_
    simp only [BitVec.getLsbD_append]
    interval_cases i <;> simp

/-- The six fields put together again are the word (rules R61, R62). -/
@[simp] theorem encodeWord_decodeWord (v : Word) : encodeWord (decodeWord v) = v := by
  refine BitVec.eq_of_getLsbD_eq fun i hi => ?_
  simp only [encodeWord, decodeWord, BitVec.getLsbD_append]
  interval_cases i <;> simp

@[simp] theorem pairWord_eq_assemble (s : State) (b0 b1 : Byte) : pairWord s b0 b1 = assemble s.byteOrder b0 b1 :=
  encodeWord_decodeWord _

/-- A word's own width value selects its class (rule R102). -/
@[simp] theorem widthSelect_field (w : WidthClass) : widthSelect ((0#7) ++ w) = .ok w := by
  revert w; decide

/-- A key of the reg form names the selector's register (rule R84). -/
@[simp] theorem lookup_regForm (wc : WidthClass) (sel : Sel) :
    lookup wc ((0#2) ++ sel ++ (0#3)) = .ok (regId wc sel) := by
  revert wc sel; decide

/-- A key of the rm form names the selector's register (rule R84). -/
@[simp] theorem lookup_rmForm (wc : WidthClass) (sel : Sel) : lookup wc ((0#5) ++ sel) = .ok (regId wc sel) := by
  revert wc sel; decide

/-- The direction value is the sentinel exactly when the direction bit is set (rule R104). -/
theorem tieBreak_field (d : BitVec 1) (val1 val2 : RegId) :
    tieBreak ((0#6) ++ d ++ (0#1)) val1 val2 =
      if d.getLsbD 0 then { src := val2, dst := val1 } else { src := val1, dst := val2 } := by
  have hd : (0#6) ++ d ++ (0#1) = (0b00000010 : BitVec 8) ↔ d.getLsbD 0 = true := by revert d; decide
  simp only [tieBreak, hd]

/-- The frames of every instruction resolve, to the registers of `{w, reg}` and `{w, rm}`. -/
theorem resolveFrames_frames (op : BitVec 6) (d w : BitVec 1) (mod : BitVec 2) (reg rm : Sel) :
    resolveFrames (Instr.mov op d w mod reg rm).frames =
      .ok (tieBreak ((0#6) ++ d ++ (0#1)) (regId w reg) (regId w rm)) := by
  simp only [resolveFrames, Instr.frames, widthSelect_field, lookup_regForm, lookup_rmForm]

/-- The decode of every word answers the operands the spec gives it (rules R107, R108). -/
theorem iduDecode_eq_ok (v : Word) : iduDecode v = .ok (expectedOperands v) := by
  have hd : (v.extractLsb' 9 1).getLsbD 0 = v.getLsbD 9 := by simp
  rw [iduDecode, byteFrames_eq_frames, decodeWord, resolveFrames_frames, tieBreak_field, hd]
  rfl

/-- The lines of a word with its own operands are the two the spec gives it (rule R50). -/
theorem wordLines_expectedOperands (v : Word) : wordLines v (expectedOperands v) = expectedLines v := by
  have hp : "Decoded instruction: " ++ "mov " = "Decoded instruction: mov " := by decide
  simp only [wordLines, expectedLines, render, ← hp, String.append_assoc]

/-- Delivering the decode of a word emits its two lines and goes on to the next word. -/
theorem deliver_iduDecode (v : Word) (s : State) :
    deliver v (iduDecode v) s = (s.emit (expectedLines v)).advance := by
  rw [iduDecode_eq_ok, deliver_ok, wordLines_expectedOperands]

/-- An instruction emits the two lines of its word and advances the word index, from every state (rules R29, R50). -/
theorem exec_eq (i : Instr) (s : State) : exec i s = .next (s.emit (expectedLines (encodeWord i))).advance := by
  cases i with
  | mov op d w mod reg rm => rw [exec, execMov, deliver_iduDecode]

/-- While words are presented, a step with a pair before it emits the two lines of the pair's word and advances. -/
theorem step_of_readPair {s : State} {b0 b1 : Byte} (hp : s.phase = .decoding) (hr : readPair s = some (b0, b1)) :
    step s = .next (s.emit (expectedLines (assemble s.byteOrder b0 b1))).advance := by
  simp only [step, hp, fetch_of_readPair hr, exec_eq, encodeWord_decodeWord]

end Sys2Proof.Machine
end

