-- ==== Sys2Proof/Proofs/StateRules.lean ====
section
/-! The obligations of 10_state.md: the frame of `mov`, the independence of one decode from all other words, the register
identifiers and the invariant at the start of a run. -/

namespace Sys2Proof.Machine

/-- A lookup outputs nothing but a RegId of its own class. -/
theorem exists_regId_of_lookup_ok {wc : WidthClass} {key : Key} {id : RegId} (h : lookup wc key = .ok id) :
    ∃ sel, id = regId wc sel := by
  obtain ⟨sel, hs⟩ | hs := lookup_cases wc key
  · exact ⟨sel, Except.ok.inj (h.symm.trans hs)⟩
  · simp [hs] at h

/-- A RegId holds its width class in bit 3 and its selector in bits 2..0 (rule R26). -/
theorem regId_layout (wc : WidthClass) (sel : Sel) :
    (regId wc sel).extractLsb 3 3 = wc ∧ (regId wc sel).extractLsb 2 0 = sel := by
  revert wc sel; decide

/-- No word lies before the start of a run, so its empty output is what the invariant asks. -/
theorem start_inv (o : ByteOrder) (m : HostMode) (openable : Bool) (input : List Byte) :
    (State.start o m openable input).Inv where
  inStream := Nat.zero_le _
  linesSoFar := by simp [State.start, linesUpTo]
  phasePromise := rfl

/-- Settles O26: all `mov` does is emit the two lines of its word and advance the word index. -/
theorem movFrame : Obligations.MovFrame := by
  intro op d w mod reg rm s t h
  rw [exec_eq] at h
  obtain rfl := Host.Outcome.next.inj h
  exact ⟨fun _ => rfl, rfl, rfl, rfl, rfl, rfl, _, _, rfl⟩

/-- Settles O44: the lines a step adds are a function of the pair and the byte order. -/
theorem decodeDependsOnNoOtherWord : Obligations.DecodeDependsOnNoOtherWord := by
  intro s1 s2 b0 b1 hp1 hp2 ho hr1 hr2
  have hs1 := step_of_readPair hp1 hr1
  have hs2 := step_of_readPair hp2 hr2
  rw [← ho] at hs2
  exact ⟨_, _, expectedLines (assemble s1.byteOrder b0 b1), hs1, hs2, rfl, rfl⟩

/-- Settles O12: the names by evaluation, the layout over the 16 RegIds, the lookup's range by its cases. -/
theorem regIdsNameTheSixteenRegisters : Obligations.RegIdsNameTheSixteenRegisters :=
  ⟨by decide, fun wc sel => ⟨rfl, regId_layout wc sel⟩, fun _ _ _ => exists_regId_of_lookup_ok⟩

/-- Settles O38: reset is one of the starts. -/
theorem invariantHoldsAtReset : Obligations.InvariantHoldsAtReset :=
  ⟨start_inv .., start_inv⟩

end Sys2Proof.Machine
end

