-- ==== Sys2Proof/Proofs/StreamWords.lean ====
section
/-! SUPPORT. The words of a byte sequence: word `k` starts at offset `2k`, so the words not yet decoded are the words of the
bytes not yet read, and reading a pair takes the next of them (rules R45, R46, R55). Decoding and assembling the two bytes
of a word give it back (rules R46, R61, R62). -/

namespace Sys2Proof.Machine

/-- Two bytes at neighbouring offsets are the front of what is left from the first on. -/
theorem drop_eq_cons_cons {input : List Byte} {a : Nat} {b0 b1 : Byte} (h0 : input[a]? = some b0)
    (h1 : input[a + 1]? = some b1) : input.drop a = b0 :: b1 :: input.drop (a + 2) := by
  obtain ⟨ha0, rfl⟩ := List.getElem?_eq_some_iff.mp h0
  obtain ⟨ha1, rfl⟩ := List.getElem?_eq_some_iff.mp h1
  rw [List.drop_eq_getElem_cons ha0, List.drop_eq_getElem_cons ha1]

/-- The words from word `k` on are the words of the bytes from offset `2k` on (rule R55). -/
theorem wordsOf_drop (o : ByteOrder) (k : Nat) (input : List Byte) :
    wordsOf o (input.drop (2 * k)) = (wordsOf o input).drop k := by
  induction k generalizing input with
  | zero => rfl
  | succ k ih =>
    match input with
    | [] => simp [wordsOf]
    | [b] => simp [wordsOf, Nat.mul_succ]
    | b0 :: b1 :: rest => simpa [wordsOf, Nat.mul_succ] using ih rest

@[simp] theorem wordsOf_length (o : ByteOrder) (input : List Byte) : (wordsOf o input).length = input.length / 2 := by
  induction input using wordsOf.induct with
  | case1 b0 b1 rest ih =>
    simp only [wordsOf, List.length_cons, ih]
    omega
  | case2 bs hbs =>
    match bs with
    | [] => rfl
    | [b] => simp [wordsOf]
    | b0 :: b1 :: rest => exact absurd rfl (hbs b0 b1 rest)

/-- Word `k` of a sequence is assembled from its bytes `2k` and `2k+1` (rule R46). -/
theorem wordsOf_getElem? (o : ByteOrder) {input : List Byte} {k : Nat} {b0 b1 : Byte}
    (h0 : input[2 * k]? = some b0) (h1 : input[2 * k + 1]? = some b1) :
    (wordsOf o input)[k]? = some (assemble o b0 b1) := by
  rw [← List.head?_drop, ← wordsOf_drop, drop_eq_cons_cons h0 h1]
  rfl

theorem linesUpTo_succ {o : ByteOrder} {input : List Byte} {k : Nat} {v : Word} (hv : (wordsOf o input)[k]? = some v) :
    linesUpTo o input (k + 1) = linesUpTo o input k ++ expectedLines v := by
  simp [linesUpTo, List.take_add_one, hv]

/-- A pair that is read is the two bytes at offsets `2k` and `2k+1` (rules R45, R46). -/
theorem readPair_eq_some_iff_streamByte {s : State} {b0 b1 : Byte} :
    readPair s = some (b0, b1) ↔ s.streamByte (2 * s.k) = some b0 ∧ s.streamByte (2 * s.k + 1) = some b1 := by
  rw [readPair_eq_some]
  constructor
  · rintro ⟨rest, hr⟩
    have hbyte (j : Nat) : s.streamByte (2 * s.k + j) = (b0 :: b1 :: rest)[j]? := by
      rw [← hr, unread, List.getElem?_drop, State.streamByte]
    exact ⟨hbyte 0, hbyte 1⟩
  · rintro ⟨h0, h1⟩
    exact ⟨_, drop_eq_cons_cons h0 h1⟩

/-- While two bytes are unread, a pair is read. -/
theorem exists_readPair {s : State} (h : 2 * s.k + 2 ≤ s.input.length) : ∃ b0 b1, readPair s = some (b0, b1) := by
  match hr : readPair s with
  | some (b0, b1) => exact ⟨b0, b1, rfl⟩
  | none => have := readPair_eq_none.mp hr; omega

/-- The word of the pair that is read is word `k` of the stream. -/
theorem wordsOf_of_readPair {s : State} {b0 b1 : Byte} (h : readPair s = some (b0, b1)) :
    (wordsOf s.byteOrder s.input)[s.k]? = some (assemble s.byteOrder b0 b1) := by
  obtain ⟨h0, h1⟩ := readPair_eq_some_iff_streamByte.mp h
  exact wordsOf_getElem? _ h0 h1

/-- What a decode that answers has read. -/
theorem decode_eq_ok {o : ByteOrder} {bs rest : List Byte} {i : Instr} :
    decode o bs = .ok (i, rest) ↔ ∃ b0 b1, bs = b0 :: b1 :: rest ∧ i = decodeWord (assemble o b0 b1) := by
  unfold decode
  split
  · rename_i b0 b1 tail
    constructor
    · intro h
      obtain ⟨rfl, rfl⟩ := Prod.mk.inj (Except.ok.inj h)
      exact ⟨b0, b1, rfl, rfl⟩
    · rintro ⟨c0, c1, hc, rfl⟩
      cases hc
      rfl
  · rename_i hbs
    constructor
    · intro h
      cases h
    · rintro ⟨b0, b1, rfl, -⟩
      exact absurd rfl (hbs b0 b1 rest)

/-- The high byte before the low byte is the word. -/
theorem extractHigh_append_extractLow (v : Word) : (v.extractLsb' 8 8 ++ v.extractLsb' 0 8 : Word) = v := by
  rw [BitVec.extractLsb'_append_extractLsb'_eq_extractLsb' (show 8 = 0 + 8 from rfl)]
  exact BitVec.extractLsb'_eq_self

/-- Decoding reads a word back from its two bytes, in either byte order, and leaves the bytes behind it (rule R46). -/
theorem decode_wordBytes (o : ByteOrder) (v : Word) (rest : List Byte) :
    decode o (wordBytes o v ++ rest) = .ok (decodeWord v, rest) := by
  cases o <;> simp [wordBytes, decode, assemble, extractHigh_append_extractLow]

/-- The extractor takes the six fields of a word apart again (rules R61, R62). -/
@[simp] theorem decodeWord_encodeWord (i : Instr) : decodeWord (encodeWord i) = i := by
  obtain ⟨op, d, w, mod, reg, rm⟩ := i
  simp only [decodeWord, encodeWord, Instr.mov.injEq]
  refine ⟨?_, ?_, ?_, ?_, ?_, ?_⟩ <;>
  · refine BitVec.eq_of_getLsbD_eq fun i hi => ?_
    simp only [BitVec.getLsbD_extractLsb', BitVec.getLsbD_append]
    interval_cases i <;> simp

/-- The binary line, character by character (rule R51). -/
theorem bin16_getElem? (v : Word) {i : Nat} (hi : i < 16) :
    (bin16 v).toList[i]? = some (if v.getLsbD (15 - i) then '1' else '0') := by
  simp [bin16, hi]

end Sys2Proof.Machine
end

