-- ==== Sys2Proof/Proofs/StepRules.lean ====
section
/-! SUPPORT. The step as an equation for each phase, what it can change, and runs of several steps. A step either moves the
run to another phase or emits the lines of word `k` and advances (rules R45 to R50, R143). -/

namespace Sys2Proof.Machine

variable {s s' t : State} {n : Nat}

/-! ## The step in each phase -/

theorem step_of_opening (hp : s.phase = .opening) : step s = .next (openSource s) := by
  simp [step, hp]

theorem step_of_lengthCheck (hp : s.phase = .lengthCheck) : step s = .next (checkLength s) := by
  simp [step, hp]

theorem step_of_fetch {i : Instr} (hp : s.phase = .decoding) (hf : fetch s = some i) : step s = exec i s := by
  simp [step, hp, hf]

theorem step_of_end (hp : s.phase = .decoding) (hr : readPair s = none) : step s = .next (endOfStream s) := by
  simp [step, hp, fetch_of_end hr]

theorem step_of_ended {o : RunOutcome} (hp : s.phase = .ended o) : step s = .next s := by
  simp [step, hp, afterEnd]

/-- While words are presented, the step emits the lines of word `k` and advances. -/
theorem step_of_word {v : Word} (hp : s.phase = .decoding) (hv : (wordsOf s.byteOrder s.input)[s.k]? = some v) :
    step s = .next (s.emit (expectedLines v)).advance := by
  obtain ⟨hk, -⟩ := List.getElem?_eq_some_iff.mp hv
  rw [wordsOf_length] at hk
  obtain ⟨b0, b1, hr⟩ := exists_readPair (s := s) (by omega)
  obtain rfl := Option.some.inj (hv.symm.trans (wordsOf_of_readPair hr))
  exact step_of_readPair hp hr

/-! ## What a step changes -/

/-- The next state of a step that presents a word. -/
theorem deliver_pairWord {b0 b1 : Byte} :
    deliver (pairWord s b0 b1) (iduDecode (pairWord s b0 b1)) s =
      (s.emit (expectedLines (assemble s.byteOrder b0 b1))).advance := by
  rw [deliver_iduDecode, pairWord_eq_assemble]

/-- All a step can do to a state: move the run to a phase, or emit the lines of word `k` and advance. -/
theorem step_setPhase_or_word (h : step s = .next s') :
    (∃ p, s' = s.setPhase p) ∨
      ∃ v, (wordsOf s.byteOrder s.input)[s.k]? = some v ∧ s' = (s.emit (expectedLines v)).advance := by
  obtain ⟨-, rfl⟩ | ⟨-, rfl⟩ | ⟨-, b0, b1, hr, rfl⟩ | ⟨-, -, rfl⟩ | ⟨o, -, rfl⟩ := step_cases h
  · obtain ⟨-, ho⟩ | ⟨-, ho⟩ := openSource_cases s
    · exact .inl ⟨_, ho⟩
    · exact .inl ⟨_, ho⟩
  · obtain ⟨-, -, hc⟩ | ⟨-, hc⟩ := checkLength_cases s
    · exact .inl ⟨_, hc⟩
    · exact .inl ⟨_, hc⟩
  · exact .inr ⟨_, wordsOf_of_readPair hr, deliver_pairWord⟩
  · exact .inl ⟨_, rfl⟩
  · exact .inl ⟨s'.phase, rfl⟩

/-- The parameters, the source and the stream are what no step changes (rules R54, R56, R59). -/
structure State.SameSetup (s t : State) : Prop where
  byteOrder : t.byteOrder = s.byteOrder
  hostMode : t.hostMode = s.hostMode
  openable : t.openable = s.openable
  input : t.input = s.input

theorem step_sameSetup (h : step s = .next s') : s.SameSetup s' := by
  obtain ⟨p, rfl⟩ | ⟨v, -, rfl⟩ := step_setPhase_or_word h
  · exact ⟨rfl, rfl, rfl, rfl⟩
  · exact ⟨rfl, rfl, rfl, rfl⟩

/-! ## Runs -/

/-- A run whose first step is known. -/
theorem runFor_succ_of_step (h : step s = .next s') : runFor (n + 1) s = runFor n s' := by
  simp [runFor, h]

/-- The first step of a run that answers a state. -/
theorem exists_step_of_runFor_succ (h : runFor (n + 1) s = .next t) :
    ∃ s', step s = .next s' ∧ runFor n s' = .next t := by
  simp only [runFor] at h
  cases hs : step s with
  | next s' => exact ⟨s', rfl, by simpa [hs] using h⟩
  | fault f => simp [hs] at h
  | refused r => simp [hs] at h

theorem runFor_sameSetup (h : runFor n s = .next t) : s.SameSetup t := by
  induction n generalizing s with
  | zero =>
    obtain rfl := Host.Outcome.next.inj h
    exact ⟨rfl, rfl, rfl, rfl⟩
  | succ n ih =>
    obtain ⟨s', hs, hr⟩ := exists_step_of_runFor_succ h
    obtain ⟨ho, hm, hop, hi⟩ := step_sameSetup hs
    obtain ⟨ho', hm', hop', hi'⟩ := ih hr
    exact ⟨ho'.trans ho, hm'.trans hm, hop'.trans hop, hi'.trans hi⟩

/-- A run that has ended steps to itself (log entry 5). -/
theorem runFor_of_ended (n : Nat) {o : RunOutcome} (hp : s.phase = .ended o) : runFor n s = .next s := by
  induction n with
  | zero => rfl
  | succ n ih => rw [runFor_succ_of_step (step_of_ended hp), ih]

theorem observe_of_ended {o : RunOutcome} (hp : s.phase = .ended o) :
    observe s = some { lines := s.lines, outcome := o } := by
  simp [observe, hp]

end Sys2Proof.Machine
end

