-- ==== Sys2Proof/Proofs/Invariant.lean ====
section
/-! The invariant of a run is kept by every step (rules R47, R48, R50, R52, R53, R108, R126, R127, R130). -/

namespace Sys2Proof.Machine

variable {s s' : State}

/-- The stream and the output part of the invariant do not depend on the phase. -/
theorem State.Inv.setPhase {p : Phase} (hi : s.Inv) (hp : (s.setPhase p).phaseOk) : (s.setPhase p).Inv :=
  ⟨hi.inStream, hi.linesSoFar, hp⟩

theorem phaseOk_of_opening (hp : s.phase = .opening) : s.phaseOk ↔ s.k = 0 := by
  simp [State.phaseOk, hp]

theorem phaseOk_of_lengthCheck (hp : s.phase = .lengthCheck) : s.phaseOk ↔ s.k = 0 ∧ s.openable = true := by
  simp [State.phaseOk, hp]

theorem phaseOk_of_decoding (hp : s.phase = .decoding) : s.phaseOk ↔ s.openable = true ∧ s.lengthAdmitted := by
  simp [State.phaseOk, hp]

/-- Opening the source leaves its state for the length check, or for the fatal end of an unopenable source. -/
theorem openSource_inv (hi : s.Inv) (hp : s.phase = .opening) : (openSource s).Inv := by
  have hk : s.k = 0 := (phaseOk_of_opening hp).mp hi.phasePromise
  obtain ⟨ho, h⟩ | ⟨ho, h⟩ := openSource_cases s
  · rw [h]
    exact hi.setPhase ⟨hk, ho⟩
  · rw [h]
    exact hi.setPhase ⟨hk, ho⟩

/-- The length check admits the length, or ends the run on an odd one in `BATCH` mode. -/
theorem checkLength_inv (hi : s.Inv) (hp : s.phase = .lengthCheck) : (checkLength s).Inv := by
  obtain ⟨hk, ho⟩ := (phaseOk_of_lengthCheck hp).mp hi.phasePromise
  obtain ⟨hodd, hm, h⟩ | ⟨hadm, h⟩ := checkLength_cases s
  · rw [h]
    exact hi.setPhase ⟨hk, ho, hm, rfl, hodd⟩
  · rw [h]
    exact hi.setPhase ⟨ho, hadm⟩

/-- The lines of word `k` are what the output lacks for the first `k + 1` words. -/
theorem word_inv {v : Word} (hi : s.Inv) (hp : s.phase = .decoding)
    (hv : (wordsOf s.byteOrder s.input)[s.k]? = some v) : ((s.emit (expectedLines v)).advance).Inv where
  inStream := by
    obtain ⟨hk, -⟩ := List.getElem?_eq_some_iff.mp hv
    rw [wordsOf_length] at hk
    simp only [advance_k, emit_k, advance_input, emit_input]
    omega
  linesSoFar := by simp [hi.linesSoFar, linesUpTo_succ hv]
  phasePromise := (phaseOk_of_decoding (by simpa using hp)).mpr ((phaseOk_of_decoding hp).mp hi.phasePromise)

/-- A run whose stream has no further pair has passed all its words. -/
theorem endOfStream_inv (hi : s.Inv) (hp : s.phase = .decoding) (hr : readPair s = none) : (endOfStream s).Inv := by
  obtain ⟨ho, hadm⟩ := (phaseOk_of_decoding hp).mp hi.phasePromise
  have hend : s.input.length < 2 * s.k + 2 := readPair_eq_none.mp hr
  have hin : 2 * s.k ≤ s.input.length := hi.inStream
  have hk : s.k = s.input.length / 2 := by omega
  exact hi.setPhase ⟨ho, hadm, hk⟩

/-- Settles O39: each action of the host keeps the invariant. -/
theorem everyStepKeepsTheInvariant : Obligations.EveryStepKeepsTheInvariant := by
  intro s s' hi h
  obtain ⟨hp, rfl⟩ | ⟨hp, rfl⟩ | ⟨hp, b0, b1, hr, rfl⟩ | ⟨hp, hr, rfl⟩ | ⟨o, -, rfl⟩ := step_cases h
  · exact openSource_inv hi hp
  · exact checkLength_inv hi hp
  · rw [deliver_pairWord]
    exact word_inv hi hp (wordsOf_of_readPair hr)
  · exact endOfStream_inv hi hp hr
  · exact hi

end Sys2Proof.Machine
end

