-- ==== Sys2Proof/Proofs/MemoryRules.lean ====
section
/-! The other obligations of 20_memory.md: reading pairs and assembling words, the two lines of a word, the single steps of
the host, and whole runs. -/

namespace Sys2Proof.Machine

/-! ## The two lines of a word -/

/-- Settles O23: a byte's bits lie in the word's upper half under `FIRST_HIGH`. -/
theorem binaryLineShowsTheBitsMostSignificantFirst : Obligations.BinaryLineShowsTheBitsMostSignificantFirst := by
  refine ⟨fun v => ⟨by simp [bin16], fun i hi => bin16_getElem? v hi⟩, fun b0 b1 i hi => ?_⟩
  have hbit : (assemble .firstHigh b0 b1).getLsbD (15 - i) = b0.getLsbD (7 - i) := by
    have hhigh : ¬ 15 - i < 8 := by omega
    have hidx : 15 - i - 8 = 7 - i := by omega
    rw [assemble, BitVec.getLsbD_append, if_neg hhigh, hidx]
  rw [bin16_getElem? _ (by omega), hbit]

/-- Settles O24: bit `i` is read off character `15 - i`. -/
theorem binaryLineDeterminesTheWord : Obligations.BinaryLineDeterminesTheWord := by
  intro v v' h
  refine BitVec.eq_of_getLsbD_eq fun i hi => ?_
  have hv := bin16_getElem? v (i := 15 - i) (by omega)
  have hv' := bin16_getElem? v' (i := 15 - i) (by omega)
  have hidx : 15 - (15 - i) = i := by omega
  rw [h, hv', hidx] at hv
  have hchar : ∀ b b' : Bool, (if b' then '1' else '0') = (if b then '1' else '0') → b = b' := by decide
  exact hchar _ _ (Option.some.inj hv)

/-- The decode of an instruction's word, by its direction bit (rules R102 to R104). -/
theorem iduDecode_encodeWord (op : BitVec 6) (d w : BitVec 1) (mod : BitVec 2) (reg rm : Sel) :
    iduDecode (encodeWord (.mov op d w mod reg rm)) =
      .ok (if d = 1 then { src := w ++ rm, dst := w ++ reg } else { src := w ++ reg, dst := w ++ rm }) := by
  have hd : d.getLsbD 0 = true ↔ d = 1 := by revert d; decide
  simp only [iduDecode, byteFrames_eq_frames, decodeWord_encodeWord, resolveFrames_frames, tieBreak_field, hd, regId]

/-- Settles O25: the decode answers, and its delivery emits the two lines and advances. -/
theorem movAppendsItsTwoLinesAndAdvances : Obligations.MovAppendsItsTwoLinesAndAdvances := by
  refine ⟨fun op d w mod reg rm s => ?_, fun _ _ _ _ => rfl⟩
  rw [exec, execMov, iduDecode_encodeWord, deliver_ok]
  by_cases hd : d = 1
  · simp only [if_pos hd]
    rfl
  · simp only [if_neg hd]
    rfl

/-! ## Pairs and words -/

/-- Settles O28: `End` is the case of fewer than two unread bytes, and a delivery moves the place by one word. -/
theorem readPairTakesTwoBytesOrEnds : Obligations.ReadPairTakesTwoBytesOrEnds := by
  refine fun s => ⟨fun h => ?_, fun h => ⟨readPair_eq_none.mpr h, fun hp => ?_⟩, fun v o => ?_⟩
  · obtain ⟨b0, b1, hr⟩ := exists_readPair h
    exact ⟨b0, b1, hr, readPair_eq_some_iff_streamByte.mp hr⟩
  · exact ⟨_, step_of_end hp (readPair_eq_none.mpr h), rfl⟩
  · simp [unread, deliver_ok, Nat.mul_succ]

/-- Settles O29: the two bytes are the pair that is read. -/
theorem wordKIsAssembledFromItsTwoBytes : Obligations.WordKIsAssembledFromItsTwoBytes := by
  refine ⟨fun s b0 b1 hp h0 h1 => ?_, fun _ _ _ _ => rfl, rfl⟩
  rw [step_of_readPair hp (readPair_eq_some_iff_streamByte.mpr ⟨h0, h1⟩)]
  have hword : assemble s.byteOrder b0 b1 = match s.byteOrder with
      | .firstHigh => b0 ++ b1
      | .firstLow => b1 ++ b0 := by
    cases s.byteOrder <;> rfl
  rw [hword]
  rfl

/-- Settles O37: the length and the elements of the word sequence. -/
theorem wordsAreCutAtEvenOffsets : Obligations.WordsAreCutAtEvenOffsets :=
  fun o input => ⟨wordsOf_length o input, fun _ _ _ => wordsOf_getElem? o⟩

/-! ## Single steps -/

/-- Settles O27: what decodes from the host's place on is what is fetched. -/
theorem stepRunsTheDecodedInstruction : Obligations.StepRunsTheDecodedInstruction := by
  intro s i rest hp h
  obtain ⟨b0, b1, hb, rfl⟩ := decode_eq_ok.mp h
  exact step_of_fetch hp (fetch_of_readPair (readPair_eq_some.mpr ⟨rest, hb⟩))

/-- Settles O7: the placed bytes are the table word's, at the host's place, and decode to it. -/
theorem placedTableWordIsTheInstructionRunNext : Obligations.PlacedTableWordIsTheInstructionRunNext := by
  intro s w hw
  have htab : tableWord 16 w = BitVec.ofNat 16 w := by
    rw [tableWord, Nat.mod_eq_of_lt (by simpa using hw)]
  constructor
  · have hdec := decode_wordBytes .firstHigh (BitVec.ofNat 16 w) []
    rw [List.append_nil] at hdec
    simp [decodeTableWord, htab, hdec]
  · obtain ⟨rest, hrest⟩ := unread_withFetchWord s 16 w
    refine stepRunsTheDecodedInstruction _ _ rest rfl ?_
    rw [← unread, hrest, htab]
    exact decode_wordBytes _ _ _

/-- Settles O30: with no further pair the host's action is the end of the stream. -/
theorem endOfStreamEndsTheRunClean : Obligations.EndOfStreamEndsTheRunClean :=
  fun _ hp h => step_of_end hp (readPair_eq_none.mpr h)

/-- Settles O32: the two cases of the length check. -/
theorem lengthCheckStopsOddBatchOnly : Obligations.LengthCheckStopsOddBatchOnly := by
  intro s hp
  rw [step_of_lengthCheck hp]
  obtain ⟨hodd, hm, h⟩ | ⟨hadm, h⟩ := checkLength_cases s
  · rw [h]
    exact ⟨fun _ _ => rfl, fun _ heven => by omega, fun hm' => by simp [hm] at hm'⟩
  · rw [h]
    exact ⟨fun hm hodd => absurd (hadm hm) hodd, fun _ _ => rfl, fun _ => rfl⟩

/-- Settles O34: an ended run steps to itself. -/
theorem endedRunChangesNoMore : Obligations.EndedRunChangesNoMore :=
  fun n _ _ hp => ⟨runFor_of_ended n hp, observe_of_ended hp⟩

/-! ## Runs of several steps -/

/-- Settles O42: each step keeps the setup, and a byte of the stream is read from the input. -/
theorem parametersAndInputNeverChange : Obligations.ParametersAndInputNeverChange := by
  intro n s t h
  obtain ⟨ho, hm, hop, hi⟩ := runFor_sameSetup h
  exact ⟨ho, hm, hop, fun a => by rw [State.streamByte, State.streamByte, hi]⟩

/-- Settles O41, by induction on the number of steps: the first step adds nothing, or the lines of the word at the place the
run begins. -/
theorem linesAreAddedInStreamOrder : Obligations.LinesAreAddedInStreamOrder := by
  intro n
  induction n with
  | zero =>
    intro s t h
    obtain rfl := Host.Outcome.next.inj h
    simp
  | succ n ih =>
    intro s t h
    obtain ⟨s', hs, hr⟩ := exists_step_of_runFor_succ h
    obtain ⟨hk, hl⟩ := ih s' t hr
    obtain ⟨p, rfl⟩ | ⟨v, hv, rfl⟩ := step_setPhase_or_word hs
    · exact ⟨hk, hl⟩
    · simp only [advance_k, emit_k, advance_lines, emit_lines, advance_input, emit_input, advance_byteOrder,
        emit_byteOrder] at hk hl
      obtain ⟨hlt, hget⟩ := List.getElem?_eq_some_iff.mp hv
      have hcount : t.k - s.k = t.k - (s.k + 1) + 1 := by omega
      refine ⟨by omega, ?_⟩
      rw [hl, hcount, List.drop_eq_getElem_cons hlt, hget]
      simp

/-- The first of several results decoded together is delivered as the word's own lines. -/
theorem deliverAll_decodeTogether_cons (v : Word) (ws : List Word) (s : State) :
    deliverAll (decodeTogether (v :: ws)) s =
      deliverAll (decodeTogether ws) (s.emit (expectedLines v)).advance := by
  rw [← deliver_iduDecode]
  rfl

/-- Delivering the results of several words decoded together emits their lines in order and advances past them. -/
theorem deliverAll_decodeTogether (ws : List Word) (s : State) :
    deliverAll (decodeTogether ws) s =
      { s with k := s.k + ws.length, lines := s.lines ++ ws.flatMap expectedLines } := by
  induction ws generalizing s with
  | nil => simp [decodeTogether, deliverAll]
  | cons v ws ih =>
    rw [deliverAll_decodeTogether_cons, ih]
    simp [State.emit, State.advance, Nat.add_assoc, Nat.add_comm 1]

/-- Settles O47, by induction on the number of words: one step delivers the first of them. -/
theorem decodingTogetherAgreesWithStepping : Obligations.DecodingTogetherAgreesWithStepping := by
  intro m
  induction m with
  | zero =>
    intro s _ _
    rfl
  | succ m ih =>
    intro s hp hk
    have hlt : s.k < (wordsOf s.byteOrder s.input).length := by
      rw [wordsOf_length]
      omega
    rw [runFor_succ_of_step (step_of_word hp (List.getElem?_eq_getElem hlt)),
      ih _ (by simpa using hp) (by simp only [advance_k, emit_k, advance_input, emit_input]; omega),
      List.drop_eq_getElem_cons hlt, List.take_succ_cons, deliverAll_decodeTogether_cons]
    rfl

/-! ## Whole runs -/

/-- From the decoding phase the run passes the words that are left and ends clean with their lines. -/
theorem exists_run_of_decoding {s : State} (hp : s.phase = .decoding) (hk : s.k ≤ s.input.length / 2) :
    ∃ n t, runFor n s = .next t ∧
      observe t = some { lines := s.lines ++ ((wordsOf s.byteOrder s.input).drop s.k).flatMap expectedLines
                         outcome := .clean } := by
  have hwords := decodingTogetherAgreesWithStepping (s.input.length / 2 - s.k) s hp (by omega)
  have hall : ((wordsOf s.byteOrder s.input).drop s.k).take (s.input.length / 2 - s.k) =
      (wordsOf s.byteOrder s.input).drop s.k := List.take_of_length_le (by simp)
  rw [hall, deliverAll_decodeTogether] at hwords
  refine ⟨_, _, (runFor_add (n := 1) hwords).trans
    (runFor_succ_of_step (step_of_end hp (readPair_eq_none.mpr ?_))), rfl⟩
  simp only [List.length_drop, wordsOf_length]
  omega

/-- The first two steps of a run whose source opens lead to the outcome of the length check. -/
theorem runFor_start_openable (o : ByteOrder) (m : HostMode) (input : List Byte) (n : Nat) :
    runFor (n + 2) (State.start o m true input) =
      runFor n (checkLength ((State.start o m true input).setPhase .lengthCheck)) :=
  (runFor_succ_of_step rfl).trans (runFor_succ_of_step (step_of_lengthCheck rfl))

/-- Settles O40: the source opens or not, the length is admitted or not, and then every word is passed. -/
theorem everyRunEndsWithTheExpectedObservation : Obligations.EveryRunEndsWithTheExpectedObservation := by
  intro o m openable input
  cases openable with
  | false => exact ⟨1, _, rfl, rfl⟩
  | true =>
    obtain ⟨hodd, hm, hcheck⟩ | ⟨hadm, hcheck⟩ :=
      checkLength_cases ((State.start o m true input).setPhase .lengthCheck)
    · replace hodd : m = .batch ∧ input.length % 2 = 1 := ⟨hm, hodd⟩
      have hexp : expectedRun o m true input =
          { lines := [], outcome := .fatal (.malformedLength input.length) } := by
        simp [expectedRun, hodd]
      exact ⟨2, _, (runFor_start_openable o m input 0).trans (congrArg _ hcheck), hexp ▸ rfl⟩
    · replace hadm : ¬ (m = .batch ∧ input.length % 2 = 1) := fun ⟨hm, hodd⟩ => by
        have heven : input.length % 2 = 0 := hadm hm
        omega
      have hexp : expectedRun o m true input =
          { lines := (wordsOf o input).flatMap expectedLines, outcome := .clean } := by
        simp [expectedRun, hadm]
      obtain ⟨n, t, hrun, hobs⟩ :=
        exists_run_of_decoding (s := (State.start o m true input).setPhase .decoding) rfl (Nat.zero_le _)
      exact ⟨n + 2, t, (runFor_start_openable o m input n).trans (hcheck ▸ hrun), hexp ▸ hobs⟩

/-! ## The two host modes -/

/-- A state under another host mode. -/
def State.withMode (m : HostMode) (s : State) : State := { s with hostMode := m }

theorem openSource_withMode (m : HostMode) (s : State) : openSource (s.withMode m) = (openSource s).withMode m := by
  rw [openSource, openSource, apply_ite (State.withMode m)]
  rfl

/-- An even length passes the check in both modes (rules R47, R48). -/
theorem checkLength_of_even {s : State} (heven : s.input.length % 2 = 0) : checkLength s = s.setPhase .decoding := by
  obtain ⟨hodd, -, -⟩ | ⟨-, h⟩ := checkLength_cases s
  · omega
  · exact h

/-- Over an even length a step does the same in another host mode. -/
theorem step_withMode {s s' : State} (m : HostMode) (heven : s.input.length % 2 = 0) (h : step s = .next s') :
    step (s.withMode m) = .next (s'.withMode m) := by
  obtain ⟨hp, rfl⟩ | ⟨hp, rfl⟩ | ⟨hp, b0, b1, hr, rfl⟩ | ⟨hp, hr, rfl⟩ | ⟨o, hp, rfl⟩ := step_cases h
  · rw [step_of_opening (s := s.withMode m) hp, openSource_withMode]
  · rw [step_of_lengthCheck (s := s.withMode m) hp, checkLength_of_even heven,
      checkLength_of_even (s := s.withMode m) heven]
    rfl
  · rw [step_of_readPair (s := s.withMode m) hp hr, deliver_pairWord]
    rfl
  · exact step_of_end (s := s.withMode m) hp hr
  · exact step_of_ended (s := s'.withMode m) hp

theorem runFor_withMode {n : Nat} {s t : State} (m : HostMode) (heven : s.input.length % 2 = 0)
    (h : runFor n s = .next t) : runFor n (s.withMode m) = .next (t.withMode m) := by
  induction n generalizing s with
  | zero =>
    obtain rfl := Host.Outcome.next.inj h
    rfl
  | succ n ih =>
    obtain ⟨s', hs, hr⟩ := exists_step_of_runFor_succ h
    rw [runFor_succ_of_step (step_withMode m heven hs)]
    exact ih (by rwa [(step_sameSetup hs).input]) hr

/-- Settles O45: the run in `STREAM` mode starts where the run in `BATCH` mode does, under the other mode. -/
theorem hostModesAgreeOnEvenLengths : Obligations.HostModesAgreeOnEvenLengths :=
  fun _ _ _ _ _ heven h => runFor_withMode .stream heven h

end Sys2Proof.Machine
end

