-- ==== Sys2Proof/Proofs/EncodingRules.lean ====
section
/-! The obligations of 30_encoding.md: the six fields of a word and their byte-frame values, decode and encode in both byte
orders, the rendered text, and that the step answers from every state. -/

namespace Sys2Proof.Machine

/-! ## Decode and encode -/

/-- Settles O3: the two bytes are read back as the instruction's word, and the word as its fields. -/
theorem decodeOfEncodeGivesTheInstructionBack : Obligations.DecodeOfEncodeGivesTheInstructionBack := by
  intro o i rest
  rw [encode, decode_wordBytes, decodeWord_encodeWord]

/-- The two bytes of a word assembled from a pair are the pair (rule R46). -/
@[simp] theorem wordBytes_assemble (o : ByteOrder) (b0 b1 : Byte) : wordBytes o (assemble o b0 b1) = [b0, b1] := by
  have hhigh (h l : Byte) : (h ++ l).extractLsb' 8 8 = h := BitVec.extractLsb'_append_eq_left
  have hlow (h l : Byte) : (h ++ l).extractLsb' 0 8 = l := BitVec.extractLsb'_append_eq_right
  cases o <;> simp only [wordBytes, assemble, hhigh, hlow]

/-- Settles O4: the word of the pair is the instruction, and by O3 another one with these bytes would be decoded as itself. -/
theorem everyPairOfBytesIsExactlyOneInstruction : Obligations.EveryPairOfBytesIsExactlyOneInstruction := by
  intro o b0 b1 rest
  have hdec : decode o (b0 :: b1 :: rest) = .ok (decodeWord (assemble o b0 b1), rest) := rfl
  refine ⟨_, hdec, ?_, fun j hj => ?_⟩
  · rw [encode, encodeWord_decodeWord, wordBytes_assemble]
  · have hself := decodeOfEncodeGivesTheInstructionBack o j rest
    rw [hj] at hself
    exact congrArg Prod.fst (Except.ok.inj (hself.symm.trans hdec))

/-! ## Fields and byte-frame values -/

/-- Settles O1: the field ports do not depend on the outcome, and put together they are the word of the decoded fields. -/
theorem fieldPortsAreSlicesAndRebuildTheWord : Obligations.FieldPortsAreSlicesAndRebuildTheWord :=
  fun instr _ => ⟨rfl, rfl, rfl, rfl, rfl, rfl, encodeWord_decodeWord instr, rfl⟩

/-- A selector in the reg field's place is one of the keys 0, 8, …, 56 (rule R63). -/
theorem regForm_toNat (sel : Sel) : ((0#2) ++ sel ++ (0#3)).toNat = 8 * sel.toNat := by
  revert sel; decide

/-- A selector in the rm field's place is one of the keys 0 to 7 (rule R63). -/
theorem rmForm_toNat (sel : Sel) : ((0#5) ++ sel).toNat = sel.toNat := by
  revert sel; decide

/-- A resolution whose width value and keys are in range leaves the operands to the tie-break (rules R102 to R104). -/
theorem resolveFrames_eq_ok {f : Frames} {wc : WidthClass} {val1 val2 : RegId} (hw : widthSelect f.wBf = .ok wc)
    (h1 : lookup wc f.reg1Bf = .ok val1) (h2 : lookup wc f.reg2Bf = .ok val2) :
    resolveFrames f = .ok (tieBreak f.dirBf val1 val2) := by
  simp only [resolveFrames, hw, h1, h2]

/-- Settles O2: the masked values are those of the fields that were put together, and the resolution is its three parts. -/
theorem byteFrameValuesAreFieldsInPlace : Obligations.ByteFrameValuesAreFieldsInPlace := by
  refine ⟨?_, fun _ _ _ => rfl, rfl, rfl, fun f wc val1 val2 hw h1 h2 => resolveFrames_eq_ok hw h1 h2⟩
  rintro op d w mod reg rm instr rfl
  have hframes : byteFrames (op ++ d ++ w ++ mod ++ reg ++ rm) = (Instr.mov op d w mod reg rm).frames :=
    (byteFrames_eq_frames _).trans (congrArg Instr.frames (decodeWord_encodeWord (.mov op d w mod reg rm)))
  refine ⟨rfl, hframes, ?_, ?_⟩
  · rw [hframes]
    exact regForm_toNat reg
  · rw [hframes]
    exact rmForm_toNat rm

/-! ## Well-formedness -/

theorem regForm_mem_keySet (sel : Sel) : (0#2) ++ sel ++ (0#3) ∈ keySet := by
  revert sel; decide

theorem rmForm_mem_keySet (sel : Sel) : (0#5) ++ sel ∈ keySet := by
  revert sel; decide

/-- The byte-frame values of every instruction's fields pass every check (rules R63, R68, R81). -/
theorem instr_wellFormed (i : Instr) : i.wellFormed = true := by
  obtain ⟨op, d, w, mod, reg, rm⟩ := i
  have hw : ((0#7) ++ w == 0 || (0#7) ++ w == 1) = true := by revert w; decide
  have hd : ((0#6) ++ d ++ (0#1) == 0 || (0#6) ++ d ++ (0#1) == 2) = true := by revert d; decide
  have hop : (op ++ (0#2)) &&& 0x03 = 0 := by revert op; decide
  have hmod : (mod ++ (0#6)) &&& 0x3F = 0 := by revert mod; decide
  simp only [Instr.wellFormed, Frames.wellFormed, Bool.and_eq_true]
  exact ⟨⟨⟨⟨⟨hw, hd⟩, List.contains_iff_mem.mpr (regForm_mem_keySet reg)⟩,
    List.contains_iff_mem.mpr (rmForm_mem_keySet rm)⟩, beq_iff_eq.mpr hop⟩, beq_iff_eq.mpr hmod⟩

/-- Settles O5: a word's masked values are those of its decoded instruction. -/
theorem everyWordIsWellFormed : Obligations.EveryWordIsWellFormed :=
  ⟨instr_wellFormed, fun v =>
    ⟨(congrArg Frames.wellFormed (byteFrames_eq_frames v)).trans (instr_wellFormed _), (byteFrames_eq_frames v).symm⟩⟩

/-! ## The rendered text -/

/-- Every register name has two letters (rule R25). -/
@[simp] theorem regName_length (id : RegId) : (regName id).length = 2 := by
  revert id; decide

/-- No two registers share a name (decision D4). -/
theorem regName_injective : Function.Injective regName := by
  unfold Function.Injective
  decide

/-- Settles O22: the names have one length, so they stand at the same places of both texts. -/
theorem renderedTextDeterminesBothOperands : Obligations.RenderedTextDeterminesBothOperands := by
  intro dst src dst' src' h
  have hchars := congrArg String.toList h
  simp only [render, String.toList_append, List.append_assoc, List.append_cancel_left_eq] at hchars
  have hlen : (regName dst).toList.length = (regName dst').toList.length := by
    simp only [String.length_toList, regName_length]
  obtain ⟨hdst, hrest⟩ := List.append_inj hchars hlen
  exact ⟨regName_injective (String.toList_inj.mp hdst),
    regName_injective (String.toList_inj.mp (List.append_cancel_left hrest))⟩

/-! ## The step -/

/-- Settles O35: each phase has its action, and a word that is fetched decodes. -/
theorem everyStateHasANextState : Obligations.EveryStateHasANextState := by
  intro s
  match hp : s.phase with
  | .opening => exact ⟨_, step_of_opening hp⟩
  | .lengthCheck => exact ⟨_, step_of_lengthCheck hp⟩
  | .decoding =>
    match hr : readPair s with
    | some (b0, b1) => exact ⟨_, step_of_readPair hp hr⟩
    | none => exact ⟨_, step_of_end hp hr⟩
  | .ended _ => exact ⟨_, step_of_ended hp⟩

end Sys2Proof.Machine
end

