-- ==== Sys2Proof/Proofs/RegisterTableRules.lean ====
section
/-! The obligations of 40_register_table.md, and which byte frames resolve. One relation carries them: a key names a
selector when it is the selector in the place of the reg field or of the rm field. The key set, the tables and the lookup
are each characterised by it once. -/

namespace Sys2Proof.Machine

/-! ## The keys that name a selector -/

/-- The key is the selector in the reg field's place or in the rm field's (rule R81). -/
def KeyNames (key : Key) (sel : Sel) : Prop := key = (0#2) ++ sel ++ (0#3) ∨ key = (0#5) ++ sel

theorem keyNames_of_rmBits {key : Key} (h : key.extractLsb' 3 5 = 0) : KeyNames key (key.extractLsb' 0 3) := by
  have hsplit : key.extractLsb' 3 5 ++ key.extractLsb' 0 3 = key :=
    (BitVec.extractLsb'_append_extractLsb'_eq_extractLsb' (rfl : 3 = 0 + 3)).trans BitVec.extractLsb'_eq_self
  rw [h] at hsplit
  exact .inr hsplit.symm

theorem keyNames_of_regBits {key : Key} (hhigh : key.extractLsb' 6 2 = 0) (hlow : key.extractLsb' 0 3 = 0) :
    KeyNames key (key.extractLsb' 3 3) := by
  have hsplit : key.extractLsb' 6 2 ++ key.extractLsb' 3 3 ++ key.extractLsb' 0 3 = key := by
    rw [BitVec.extractLsb'_append_extractLsb'_eq_extractLsb' (rfl : 6 = 3 + 3)]
    exact (BitVec.extractLsb'_append_extractLsb'_eq_extractLsb' (rfl : 3 = 0 + 3)).trans BitVec.extractLsb'_eq_self
  rw [hhigh, hlow] at hsplit
  exact .inl hsplit.symm

/-- `K` is the keys that name a selector (rule R81). -/
theorem mem_keySet_iff {key : Key} : key ∈ keySet ↔ ∃ sel, KeyNames key sel := by
  constructor
  · have hall : ∀ key ∈ keySet, ∃ sel : Sel, key = (0#2) ++ sel ++ (0#3) ∨ key = (0#5) ++ sel := by decide
    exact hall key
  · rintro ⟨sel, rfl | rfl⟩
    · exact regForm_mem_keySet sel
    · exact rmForm_mem_keySet sel

/-! ## The lookup -/

theorem lookup_of_rmBits (wc : WidthClass) {key : Key} (h : key.extractLsb' 3 5 = 0) :
    lookup wc key = .ok (regId wc (key.extractLsb' 0 3)) :=
  if_pos h

theorem lookup_of_regBits (wc : WidthClass) {key : Key} (hrm : key.extractLsb' 3 5 ≠ 0)
    (h : key.extractLsb' 6 2 = 0 ∧ key.extractLsb' 0 3 = 0) :
    lookup wc key = .ok (regId wc (key.extractLsb' 3 3)) :=
  (if_neg hrm).trans (if_pos h)

theorem lookup_of_otherBits (wc : WidthClass) {key : Key} (hrm : key.extractLsb' 3 5 ≠ 0)
    (hreg : ¬(key.extractLsb' 6 2 = 0 ∧ key.extractLsb' 0 3 = 0)) :
    lookup wc key = .error (.lookupFault wc key) :=
  (if_neg hrm).trans (if_neg hreg)

theorem lookup_of_keyNames (wc : WidthClass) {key : Key} {sel : Sel} (h : KeyNames key sel) :
    lookup wc key = .ok (regId wc sel) := by
  obtain rfl | rfl := h
  · exact lookup_regForm wc sel
  · exact lookup_rmForm wc sel

/-- A lookup returns exactly on the keys of `K` (rules R85, R87). -/
theorem exists_lookup_eq_ok_iff {wc : WidthClass} {key : Key} : (∃ id, lookup wc key = .ok id) ↔ key ∈ keySet := by
  rw [mem_keySet_iff]
  constructor
  · rintro ⟨id, hid⟩
    by_cases hrm : key.extractLsb' 3 5 = 0
    · exact ⟨_, keyNames_of_rmBits hrm⟩
    · by_cases hreg : key.extractLsb' 6 2 = 0 ∧ key.extractLsb' 0 3 = 0
      · exact ⟨_, keyNames_of_regBits hreg.1 hreg.2⟩
      · rw [lookup_of_otherBits wc hrm hreg] at hid
        cases hid
  · rintro ⟨sel, hsel⟩
    exact ⟨_, lookup_of_keyNames wc hsel⟩

/-- A lookup faults exactly outside `K` (rule R85). -/
theorem exists_lookup_eq_error_iff {wc : WidthClass} {key : Key} :
    (∃ f, lookup wc key = .error f) ↔ key ∉ keySet := by
  rw [← exists_lookup_eq_ok_iff (wc := wc)]
  cases lookup wc key <;> simp

/-- Outside `K` the fault carries the class and the key (rule R85). -/
theorem lookup_of_not_mem (wc : WidthClass) {key : Key} (h : key ∉ keySet) :
    lookup wc key = .error (.lookupFault wc key) := by
  obtain ⟨f, hf⟩ := exists_lookup_eq_error_iff.mpr h
  rw [hf, lookup_error hf]

theorem rtuOutputs_of_ok {wc : WidthClass} {key : Key} {v : RegId} (h : lookup wc key = .ok v) :
    rtuOutputs wc key = { id := v, kfault := 0 } := by
  rw [rtuOutputs, h]

theorem rtuOutputs_kfault_of_error {wc : WidthClass} {key : Key} {f : Fault} (h : lookup wc key = .error f) :
    (rtuOutputs wc key).kfault = 1 := by
  rw [rtuOutputs, h]

/-- Settles O9: the branches are those of the lookup's definition, and each outcome drives its ports. -/
theorem lookupFollowsItsThreeBranches : Obligations.LookupFollowsItsThreeBranches := by
  intro wc key
  refine ⟨fun hrm => ?_, fun hrm hhigh hlow => ?_, fun hrm hreg => ?_, fun v hv => ?_, fun f hf => ?_⟩
  · exact lookup_of_rmBits wc hrm
  · exact lookup_of_regBits wc hrm ⟨hhigh, hlow⟩
  · exact lookup_of_otherBits wc hrm hreg
  · rw [rtuOutputs_of_ok hv]
    exact ⟨rfl, rfl⟩
  · exact rtuOutputs_kfault_of_error hf

/-! ## The tables -/

/-- The two entries of a selector, at its place in either half of the table (rule R80). -/
theorem table_getElem? (wc : WidthClass) (sel : Sel) :
    (table wc)[sel.toNat]? = some ((0#2) ++ sel ++ (0#3), regName (regId wc sel)) ∧
      (table wc)[8 + sel.toNat]? = some ((0#5) ++ sel, regName (regId wc sel)) := by
  revert wc sel; decide

/-- A table is the pairs of a key and the name of the register of the selector it names (rules R80, R81). -/
theorem mem_table_iff {wc : WidthClass} {key : Key} {name : String} :
    (key, name) ∈ table wc ↔ ∃ sel, KeyNames key sel ∧ regName (regId wc sel) = name := by
  constructor
  · have hall : ∀ (wc : WidthClass), ∀ e ∈ table wc, ∃ sel : Sel,
        (e.1 = (0#2) ++ sel ++ (0#3) ∨ e.1 = (0#5) ++ sel) ∧ regName (regId wc sel) = e.2 := by decide
    exact hall wc (key, name)
  · rintro ⟨sel, rfl | rfl, rfl⟩
    · exact List.mem_of_getElem? (table_getElem? wc sel).1
    · exact List.mem_of_getElem? (table_getElem? wc sel).2

/-- The lookup of an entry's key names the entry's register (rule R87). -/
theorem exists_lookup_of_mem_table {wc : WidthClass} {key : Key} {name : String} (h : (key, name) ∈ table wc) :
    ∃ id, lookup wc key = .ok id ∧ regName id = name := by
  obtain ⟨sel, hsel, hname⟩ := mem_table_iff.mp h
  exact ⟨_, lookup_of_keyNames wc hsel, hname⟩

/-- Each table is a function of the key, since the lookup is one (rule R82). -/
theorem name_unique_of_mem_table {wc : WidthClass} {key : Key} {name name' : String} (h : (key, name) ∈ table wc)
    (h' : (key, name') ∈ table wc) : name = name' := by
  obtain ⟨id, hid, rfl⟩ := exists_lookup_of_mem_table h
  obtain ⟨id', hid', rfl⟩ := exists_lookup_of_mem_table h'
  rw [Except.ok.inj (hid.symm.trans hid')]

/-- The keys with an entry are those of `K` (rule R81). -/
theorem exists_mem_table_iff {wc : WidthClass} {key : Key} : (∃ name, (key, name) ∈ table wc) ↔ key ∈ keySet := by
  simp only [mem_table_iff, mem_keySet_iff]
  exact ⟨fun ⟨_, sel, hsel, _⟩ => ⟨sel, hsel⟩, fun ⟨sel, hsel⟩ => ⟨_, sel, hsel, rfl⟩⟩

/-- Settles O10: both the tables and the lookup go by the selector that the key names. -/
theorem lookupAgreesWithTheTables : Obligations.LookupAgreesWithTheTables :=
  fun wc _ => ⟨fun _ => exists_lookup_of_mem_table, exists_mem_table_iff.mpr, lookup_of_not_mem wc⟩

/-- Settles O8: the columns by evaluation, the entries by selector, the key values by the selectors they name. -/
theorem tablesEnumerateSixteenEntriesOverFifteenKeys : Obligations.TablesEnumerateSixteenEntriesOverFifteenKeys := by
  have hcolumns : ∀ wc : WidthClass, (table wc).length = 16 ∧
      (table wc).map (fun e => e.1) = [0, 8, 16, 24, 32, 40, 48, 56, 0, 1, 2, 3, 4, 5, 6, 7] := by decide
  refine ⟨fun wc => ⟨(hcolumns wc).1, (hcolumns wc).2, fun key => ?_, table_getElem? wc, ?_⟩, rfl, rfl, rfl, by decide⟩
  · rw [← exists_mem_table_iff (wc := wc)]
    simp
  · rintro ⟨key, name⟩ h ⟨_, name'⟩ h' rfl
    rw [name_unique_of_mem_table h h']

/-! ## How many keys succeed -/

/-- The numbers below 256 meet each key once, so as many of them lie in a list of distinct keys as it has entries. -/
theorem countP_range_mem_keys {keys : List Key} (hkeys : keys.Nodup) :
    ((List.range 256).countP fun n => decide (BitVec.ofNat 8 n ∈ keys)) = keys.length := by
  have hnodup : ((List.range 256).map (BitVec.ofNat 8)).Nodup := by
    refine List.nodup_range.map_on fun m hm n hn hmn => ?_
    have hmod : m % 256 = n % 256 := by simpa using congrArg BitVec.toNat hmn
    rw [List.mem_range] at hm hn
    omega
  have hmem (key : Key) : key ∈ (List.range 256).map (BitVec.ofNat 8) :=
    List.mem_map.mpr ⟨key.toNat, List.mem_range.mpr key.isLt, by simp⟩
  have hperm : (((List.range 256).map (BitVec.ofNat 8)).filter fun key => decide (key ∈ keys)).Perm keys :=
    (List.perm_ext_iff_of_nodup (hnodup.filter _) hkeys).mpr fun key => by simp [hmem key]
  rw [← hperm.length_eq, ← List.countP_eq_length_filter, List.countP_map]
  rfl

theorem lookup_toOption_isSome (wc : WidthClass) (key : Key) :
    (lookup wc key).toOption.isSome = decide (key ∈ keySet) := by
  rw [Bool.eq_iff_iff, decide_eq_true_iff, ← exists_lookup_eq_ok_iff (wc := wc)]
  cases lookup wc key <;> simp [Except.toOption]

theorem key_lt_of_mem_keySet {key : Key} (h : key ∈ keySet) : key.toNat < 64 := by
  have hall : ∀ key ∈ keySet, key.toNat < 64 := by decide
  exact hall key h

/-- A key with both selector places in use is outside `K` (rule R86). -/
theorem combined_not_mem_keySet {a b : Sel} (ha : a ≠ 0) (hb : b ≠ 0) : (0#2) ++ a ++ b ∉ keySet := by
  revert a b; decide

/-- Settles O11: `K` has 15 distinct keys, and being in `K` does not depend on the class. -/
theorem fifteenKeysSucceedAndTheRestFault : Obligations.FifteenKeysSucceedAndTheRestFault := by
  refine ⟨fun wc => ?_, fun wc key hkey => ?_, fun wc a b ha hb => ?_, fun wc wc' key => ?_⟩
  · have hsome : ((List.range 256).countP fun n => (lookup wc (BitVec.ofNat 8 n)).toOption.isSome) = 15 := by
      simp only [lookup_toOption_isSome]
      exact countP_range_mem_keys (by decide)
    have htotal := List.length_eq_countP_add_countP
      (fun n => (lookup wc (BitVec.ofNat 8 n)).toOption.isSome) (l := List.range 256)
    rw [hsome, List.length_range] at htotal
    simp only [Bool.not_eq_true, Option.isSome_eq_false_iff, Bool.decide_eq_true] at htotal
    exact ⟨hsome, by omega⟩
  · exact lookup_of_not_mem wc fun hmem => absurd (key_lt_of_mem_keySet hmem) (by omega)
  · exact lookup_of_not_mem wc (combined_not_mem_keySet ha hb)
  · rw [exists_lookup_eq_error_iff, exists_lookup_eq_error_iff]

/-! ## The byte frames that resolve -/

/-- The width value selects a class exactly when it is in range (rule R102). -/
theorem widthOk_iff {f : Frames} : f.widthOk = true ↔ ∃ wc, widthSelect f.wBf = .ok wc := by
  rw [Frames.widthOk, Bool.or_eq_true, beq_iff_eq, beq_iff_eq]
  obtain ⟨hx, hw⟩ | ⟨hx, hw⟩ | ⟨h1, h0, hw⟩ := widthSelect_cases f.wBf
  · exact iff_of_true (.inr hx) ⟨1, hw⟩
  · exact iff_of_true (.inl hx) ⟨0, hw⟩
  · refine iff_of_false (not_or.mpr ⟨h0, h1⟩) fun ⟨wc, hwc⟩ => ?_
    rw [hw] at hwc
    cases hwc

/-- Either key is in range exactly when its lookup returns, in whichever class (rule R85). -/
theorem keySet_contains_iff (wc : WidthClass) {key : Key} :
    keySet.contains key = true ↔ ∃ v, lookup wc key = .ok v :=
  List.contains_iff_mem.trans exists_lookup_eq_ok_iff.symm

/-- Settles O15: each check is that one part of the resolution answers. -/
theorem framesResolveExactlyWhenInRange : Obligations.FramesResolveExactlyWhenInRange := by
  intro f
  simp only [Bool.and_eq_true]
  constructor
  · rintro ⟨⟨hwidth, hreg1⟩, hreg2⟩
    obtain ⟨wc, hwc⟩ := widthOk_iff.mp hwidth
    obtain ⟨val1, hval1⟩ := (keySet_contains_iff wc).mp hreg1
    obtain ⟨val2, hval2⟩ := (keySet_contains_iff wc).mp hreg2
    exact ⟨_, resolveFrames_eq_ok hwc hval1 hval2⟩
  · rintro ⟨o, ho⟩
    obtain ⟨wc, val1, val2, hwc, hval1, hval2, -⟩ := resolveFrames_ok ho
    exact ⟨⟨widthOk_iff.mpr ⟨wc, hwc⟩, (keySet_contains_iff wc).mpr ⟨val1, hval1⟩⟩,
      (keySet_contains_iff wc).mpr ⟨val2, hval2⟩⟩

end Sys2Proof.Machine
end

