-- ==== Sys2Proof/Proofs/MovDecoderRules.lean ====
section
/-! The obligations of 41_mov_decoder.md: the width class of both operands, that no word faults, the value of the decode, of
the text and of every port by the six fields of a word, and the corner cases of rule R113. -/

namespace Sys2Proof.Machine

/-! ## The two units on a word and on its fields -/

/-- Every word has a text, that of its own operands (rules R100, R105, R108). -/
theorem iduText_eq_ok (v : Word) :
    iduText v = .ok (render (expectedOperands v).dst (expectedOperands v).src) := by
  rw [iduText, iduDecode_eq_ok]

/-- The ports of every word are those of a decode that answered (rules R107, R108). -/
theorem iduOutputs_eq_driveIdu_ok (v : Word) : iduOutputs v = driveIdu v (.ok (expectedOperands v)) := by
  rw [iduOutputs, iduDecode_eq_ok]

theorem byteFrames_encodeWord (i : Instr) : byteFrames (encodeWord i) = i.frames := by
  rw [byteFrames_eq_frames, decodeWord_encodeWord]

section Fields

variable (op : BitVec 6) (d w : BitVec 1) (mod : BitVec 2) (reg rm : Sel)

theorem expectedOperands_encodeWord :
    expectedOperands (encodeWord (.mov op d w mod reg rm)) =
      if d = 1 then { src := w ++ rm, dst := w ++ reg } else { src := w ++ reg, dst := w ++ rm } :=
  Except.ok.inj ((iduDecode_eq_ok _).symm.trans (iduDecode_encodeWord op d w mod reg rm))

/-- The text of a word by its fields: neither `op` nor `mod` occurs in it (rules R105, R106). -/
theorem iduText_encodeWord :
    iduText (encodeWord (.mov op d w mod reg rm)) =
      .ok (if d = 1 then render (w ++ reg) (w ++ rm) else render (w ++ rm) (w ++ reg)) := by
  rw [iduText_eq_ok, expectedOperands_encodeWord]
  split <;> rfl

/-- Every output port by the fields of the word (rule R107). -/
theorem iduOutputs_encodeWord :
    iduOutputs (encodeWord (.mov op d w mod reg rm)) =
      { op, d, w, mod, reg, rm, srcId := if d = 1 then w ++ rm else w ++ reg
        dstId := if d = 1 then w ++ reg else w ++ rm, fault := 0, faultCode := 0 } := by
  obtain ⟨hop, hd, hw, hmod, hreg, hrm⟩ := Instr.mov.inj (decodeWord_encodeWord (.mov op d w mod reg rm))
  rw [iduOutputs_eq_driveIdu_ok, driveIdu, hop, hd, hw, hmod, hreg, hrm, expectedOperands_encodeWord]
  split <;> rfl

/-- Two words that differ only in `op` and `mod` differ only at those two ports (rules R106, R113). -/
theorem iduOutputs_encodeWord_op_mod (op' : BitVec 6) (mod' : BitVec 2) :
    iduOutputs (encodeWord (.mov op d w mod reg rm)) =
      { iduOutputs (encodeWord (.mov op' d w mod' reg rm)) with op := op, mod := mod } := by
  rw [iduOutputs_encodeWord, iduOutputs_encodeWord]

/-- The exclusive or of two words is taken field by field (rule R61). -/
theorem encodeWord_xor (op' : BitVec 6) (d' w' : BitVec 1) (mod' : BitVec 2) (reg' rm' : Sel) :
    encodeWord (.mov op d w mod reg rm) ^^^ encodeWord (.mov op' d' w' mod' reg' rm') =
      encodeWord (.mov (op ^^^ op') (d ^^^ d') (w ^^^ w') (mod ^^^ mod') (reg ^^^ reg') (rm ^^^ rm')) := by
  have happend : (op ++ d ++ w ++ mod ++ reg ++ rm) ^^^ (op' ++ d' ++ w' ++ mod' ++ reg' ++ rm') =
      (op ^^^ op') ++ (d ^^^ d') ++ (w ^^^ w') ++ (mod ^^^ mod') ++ (reg ^^^ reg') ++ (rm ^^^ rm') := by
    simp only [BitVec.xor_append]
  exact happend

/-- Toggling bit 9 of a word toggles its `d` field. -/
theorem encodeWord_xor_direction :
    encodeWord (.mov op d w mod reg rm) ^^^ 0x0200 = encodeWord (.mov op (d ^^^ 1#1) w mod reg rm) := by
  have hmask : (0x0200 : Word) = encodeWord (.mov 0#6 1#1 0#1 0#2 0#3 0#3) := rfl
  simp only [hmask, encodeWord_xor, BitVec.xor_zero]

/-- Toggling bit 8 of a word toggles its `w` field. -/
theorem encodeWord_xor_width :
    encodeWord (.mov op d w mod reg rm) ^^^ 0x0100 = encodeWord (.mov op d (w ^^^ 1#1) mod reg rm) := by
  have hmask : (0x0100 : Word) = encodeWord (.mov 0#6 0#1 1#1 0#2 0#3 0#3) := rfl
  simp only [hmask, encodeWord_xor, BitVec.xor_zero]

end Fields

/-! ## The width class -/

theorem widthSelect_byteFrames (v : Word) : widthSelect (byteFrames v).wBf = .ok (v.extractLsb 8 8) := by
  rw [byteFrames_eq_frames]
  exact widthSelect_field _

/-- A lookup that returns gives a register of the class it was asked for (rules R26, R84). -/
theorem class_of_lookup_ok {wc : WidthClass} {key : Key} {id : RegId} (h : lookup wc key = .ok id) :
    id.extractLsb 3 3 = wc := by
  obtain ⟨sel, rfl⟩ := exists_regId_of_lookup_ok h
  exact (regId_layout wc sel).1

/-- The tie-break only orders the two values (rule R104). -/
theorem tieBreak_cases (dirBf : BitVec 8) (val1 val2 : RegId) :
    tieBreak dirBf val1 val2 = { src := val2, dst := val1 } ∨
      tieBreak dirBf val1 val2 = { src := val1, dst := val2 } :=
  ite_eq_or_eq ..

/-- Both lookups of a resolution use the class of its width select, so both operands are of it (rules R102, R103). -/
theorem class_of_resolveFrames_ok {f : Frames} {wc : WidthClass} {o : Operands} (hw : widthSelect f.wBf = .ok wc)
    (h : resolveFrames f = .ok o) : o.src.extractLsb 3 3 = wc ∧ o.dst.extractLsb 3 3 = wc := by
  obtain ⟨wc', val1, val2, hw', h1, h2, rfl⟩ := resolveFrames_ok h
  obtain rfl := Except.ok.inj (hw.symm.trans hw')
  have hc1 := class_of_lookup_ok h1
  have hc2 := class_of_lookup_ok h2
  obtain ht | ht := tieBreak_cases f.dirBf val1 val2
  · rw [ht]
    exact ⟨hc2, hc1⟩
  · rw [ht]
    exact ⟨hc1, hc2⟩

/-- Settles O13: the cases of the width select, and its value on a word is the class of both lookups. -/
theorem widthFieldSelectsOneTableForBothOperands : Obligations.WidthFieldSelectsOneTableForBothOperands := by
  refine ⟨⟨rfl, rfl, fun x h0 h1 => ?_⟩, fun v => ⟨widthSelect_byteFrames v, fun o ho => ?_⟩⟩
  · obtain ⟨hx, -⟩ | ⟨hx, -⟩ | ⟨-, -, hfault⟩ := widthSelect_cases x
    · exact absurd hx h1
    · exact absurd hx h0
    · exact hfault
  · exact class_of_resolveFrames_ok (widthSelect_byteFrames v) ho

/-! ## Faults -/

/-- Both keys of a word are a selector in one field's place (rules R63, R108). -/
theorem byteFrames_keys_mem_keySet (v : Word) :
    (byteFrames v).reg1Bf ∈ keySet ∧ (byteFrames v).reg2Bf ∈ keySet := by
  rw [byteFrames_eq_frames]
  exact ⟨regForm_mem_keySet _, rmForm_mem_keySet _⟩

/-- The RTU signals a fault exactly when its lookup faults (rules R84, R85). -/
theorem rtuOutputs_kfault_iff {wc : WidthClass} {key : Key} :
    (rtuOutputs wc key).kfault = 1 ↔ ∃ f, lookup wc key = .error f := by
  cases h : lookup wc key with
  | ok v => simp [rtuOutputs_of_ok h]
  | error f => simp [rtuOutputs_kfault_of_error h]

/-- Settles O16: a word's keys are in `K` and its decode answers, and the RTU's lookup faults exactly outside `K`. -/
theorem noWordMakesTheDecodeFault : Obligations.NoWordMakesTheDecodeFault := by
  refine ⟨fun v => ?_, fun _ _ => rtuOutputs_kfault_iff.trans exists_lookup_eq_error_iff⟩
  obtain ⟨h1, h2⟩ := byteFrames_keys_mem_keySet v
  rw [iduOutputs_eq_driveIdu_ok]
  exact ⟨h1, h2, ⟨_, iduDecode_eq_ok v⟩, rfl, rfl⟩

/-! ## Operands, ports and text -/

/-- Settles O18: the fields' frames are the keys of the two lookups, and `d` is 1 or 0 in the decode by fields. -/
theorem movDecodesToTheOperandsOfItsFields : Obligations.MovDecodesToTheOperandsOfItsFields := by
  refine ⟨⟨rfl, rfl⟩, ?_⟩
  rintro op d w mod reg rm _ rfl
  have hframes := byteFrames_encodeWord (.mov op d w mod reg rm)
  have hdecode := iduDecode_encodeWord op d w mod reg rm
  have htext := iduText_encodeWord op d w mod reg rm
  refine ⟨⟨?_, ?_⟩, ?_, ?_, iduOutputs_encodeWord op d w mod reg rm⟩
  · exact (congrArg (fun f => lookup w f.reg1Bf) hframes).trans (lookup_regForm w reg)
  · exact (congrArg (fun f => lookup w f.reg2Bf) hframes).trans (lookup_rmForm w rm)
  · rintro rfl
    exact ⟨hdecode, htext⟩
  · rintro rfl
    exact ⟨hdecode, htext⟩

/-- Settles O19: text and ports by fields. -/
theorem operationAndModeNeverMatter : Obligations.OperationAndModeNeverMatter :=
  fun op op' mod mod' d w reg rm =>
    ⟨(iduText_encodeWord op d w mod reg rm).trans (iduText_encodeWord op' d w mod' reg rm).symm,
      iduOutputs_encodeWord_op_mod op d w mod reg rm op' mod'⟩

/-- Settles O21: the text of a word is that of its operands. -/
theorem renderWritesMovDestinationSource : Obligations.RenderWritesMovDestinationSource :=
  ⟨fun dst src => ⟨rfl, regName_length dst, regName_length src⟩, rfl, fun v => ⟨_, _, iduText_eq_ok v⟩⟩

/-! ## Corner cases -/

/-- The width class is bit 3 of a register identifier (rule R26). -/
theorem toggledClass_append (w : WidthClass) (sel : Sel) : (w ^^^ 1#1) ++ sel = (w ++ sel) ^^^ (0b1000 : RegId) := by
  have hmask : (0b1000 : RegId) = (1#1) ++ (0#3) := rfl
  rw [hmask, BitVec.xor_append, BitVec.xor_zero]

/-- Toggling `d` swaps the operands (rule R113 item 3). -/
theorem expectedOperands_xor_direction (v : Word) :
    expectedOperands (v ^^^ 0x0200) = { src := (expectedOperands v).dst, dst := (expectedOperands v).src } := by
  rw [← encodeWord_decodeWord v, decodeWord, encodeWord_xor_direction, expectedOperands_encodeWord,
    expectedOperands_encodeWord]
  obtain hd | hd := BitVec.eq_zero_or_eq_one (v.extractLsb' 9 1) <;>
  · rw [hd]
    rfl

/-- Toggling `w` flips bit 3 of both identifiers (rule R113 item 4). -/
theorem expectedOperands_xor_width (v : Word) :
    expectedOperands (v ^^^ 0x0100) =
      { src := (expectedOperands v).src ^^^ 0b1000, dst := (expectedOperands v).dst ^^^ 0b1000 } := by
  rw [← encodeWord_decodeWord v, decodeWord, encodeWord_xor_width, expectedOperands_encodeWord,
    expectedOperands_encodeWord, toggledClass_append, toggledClass_append]
  split <;> rfl

/-- Settles O20: every item is the decode, the ports or the byte frames by fields, and the two toggles change one field. -/
theorem cornerCasesOfMov : Obligations.CornerCasesOfMov := by
  refine ⟨fun op d w mod r => ?_, ⟨rfl, rfl⟩, fun op d w mod => ?_, fun v o ho => ?_,
    fun op op' mod mod' d w reg rm => iduOutputs_encodeWord_op_mod op d w mod reg rm op' mod',
    fun op w mod reg rm => ⟨?_, ?_⟩⟩
  · exact (iduDecode_encodeWord op d w mod r r).trans (congrArg Except.ok (ite_self _))
  · have hframes := byteFrames_encodeWord (.mov op d w mod 0 0)
    exact ⟨congrArg Frames.reg1Bf hframes, congrArg Frames.reg2Bf hframes⟩
  · obtain rfl := Except.ok.inj (ho.symm.trans (iduDecode_eq_ok v))
    rw [iduDecode_eq_ok, iduDecode_eq_ok, expectedOperands_xor_direction, expectedOperands_xor_width]
    exact ⟨rfl, rfl⟩
  · exact congrArg IduPorts.dstId (iduOutputs_encodeWord op 1 w mod reg rm)
  · exact congrArg IduPorts.srcId (iduOutputs_encodeWord op 0 w mod reg rm)

end Sys2Proof.Machine
end

