-- ==== Sys2Proof/Proofs/ExceptionRules.lean ====
section
/-! The obligations of 60_exceptions.md: the order in which the faults of a resolution are reported, the fault signals, and
how a fault ends a run. -/

namespace Sys2Proof.Machine

/-! ## The first fault of a resolution -/

/-- A fault of the width select is that of a third width value (rules R102, R124). -/
theorem widthSelect_error {x : BitVec 8} {e : Fault} (h : widthSelect x = .error e) :
    e = .widthFault x ∧ x ≠ 0 ∧ x ≠ 1 := by
  obtain ⟨-, hw⟩ | ⟨-, hw⟩ | ⟨h1, h0, hw⟩ := widthSelect_cases x
  · cases hw.symm.trans h
  · cases hw.symm.trans h
  · exact ⟨(Except.error.inj (hw.symm.trans h)).symm, h0, h1⟩

/-- A fault of the lookup carries its class and key, which is outside `K` (rules R85, R123). -/
theorem lookup_error_not_mem {wc : WidthClass} {key : Key} {e : Fault} (h : lookup wc key = .error e) :
    e = .lookupFault wc key ∧ key ∉ keySet :=
  ⟨lookup_error h, exists_lookup_eq_error_iff.mp ⟨e, h⟩⟩

section Resolution

variable {f : Frames} {wc : WidthClass} {v : RegId} {e : Fault}

theorem resolveFrames_of_width_error (hw : widthSelect f.wBf = .error e) : resolveFrames f = .error e := by
  rw [resolveFrames, hw]

theorem resolveFrames_of_reg1_error (hw : widthSelect f.wBf = .ok wc) (h1 : lookup wc f.reg1Bf = .error e) :
    resolveFrames f = .error e := by
  simp only [resolveFrames, hw, h1]

theorem resolveFrames_of_reg2_error (hw : widthSelect f.wBf = .ok wc) (h1 : lookup wc f.reg1Bf = .ok v)
    (h2 : lookup wc f.reg2Bf = .error e) : resolveFrames f = .error e := by
  simp only [resolveFrames, hw, h1, h2]

/-- A resolution that faults does so in one of its three parts, after the earlier parts have answered (rule R125). -/
theorem resolveFrames_error_cases (h : resolveFrames f = .error e) :
    widthSelect f.wBf = .error e ∨
      ∃ wc, widthSelect f.wBf = .ok wc ∧
        (lookup wc f.reg1Bf = .error e ∨ ∃ v, lookup wc f.reg1Bf = .ok v ∧ lookup wc f.reg2Bf = .error e) := by
  match hw : widthSelect f.wBf with
  | .error _ =>
    obtain rfl := Except.error.inj ((resolveFrames_of_width_error hw).symm.trans h)
    exact .inl rfl
  | .ok wc =>
    refine .inr ⟨wc, rfl, ?_⟩
    match h1 : lookup wc f.reg1Bf with
    | .error _ =>
      obtain rfl := Except.error.inj ((resolveFrames_of_reg1_error hw h1).symm.trans h)
      exact .inl rfl
    | .ok v =>
      refine .inr ⟨v, rfl, ?_⟩
      match h2 : lookup wc f.reg2Bf with
      | .error _ =>
        obtain rfl := Except.error.inj ((resolveFrames_of_reg2_error hw h1 h2).symm.trans h)
        rfl
      | .ok _ => cases (resolveFrames_eq_ok hw h1 h2).symm.trans h

end Resolution

/-- Settles O14: the fault is that of the part in which the resolution stopped. -/
theorem firstFaultInStepOrderIsReported : Obligations.FirstFaultInStepOrderIsReported := by
  refine fun f => ⟨fun e => resolveFrames_of_width_error, fun wc hw =>
    ⟨fun e => resolveFrames_of_reg1_error hw, fun v e => resolveFrames_of_reg2_error hw⟩, fun e he => ?_⟩
  obtain hw | ⟨wc, hw, h1 | ⟨v, h1, h2⟩⟩ := resolveFrames_error_cases he
  · exact .inl (widthSelect_error hw)
  · exact .inr (.inl ⟨wc, hw, lookup_error_not_mem h1⟩)
  · obtain ⟨hfault, hkey2⟩ := lookup_error_not_mem h2
    exact .inr (.inr ⟨wc, hw, hfault, exists_lookup_eq_ok_iff.mp ⟨v, h1⟩, hkey2⟩)

/-! ## The fault signals -/

/-- `fault` is 1 exactly when the decode faulted (rule R121). -/
theorem driveIdu_fault_eq_one_iff {v : Word} {r : Except Fault Operands} :
    (driveIdu v r).fault = 1 ↔ ∃ f, r = .error f := by
  cases r <;> simp [driveIdu, faultSignal]

/-- `fault` is 0 exactly when the decode answered operands (rule R121). -/
theorem driveIdu_fault_eq_zero_iff {v : Word} {r : Except Fault Operands} :
    (driveIdu v r).fault = 0 ↔ ∃ o, r = .ok o := by
  cases r <;> simp [driveIdu, faultSignal]

theorem iduDecode_ne_error (v : Word) (f : Fault) : iduDecode v ≠ .error f := by
  rw [iduDecode_eq_ok]
  exact nofun

/-- Settles O17: the signals by the outcome of the decode, which is no fault on a word, and the codes by evaluation. -/
theorem faultSignalsCarryTheCause : Obligations.FaultSignalsCarryTheCause := by
  refine ⟨fun v r => ⟨driveIdu_fault_eq_one_iff, driveIdu_fault_eq_zero_iff, ?_, ?_⟩,
    fun v => ⟨driveIdu_fault_eq_one_iff, fun h => ?_⟩,
    fun _ _ => rfl, fun _ => rfl, rfl, fun _ => rfl, rfl, fun _ => rfl⟩
  · rintro f rfl
    rfl
  · rintro o rfl
    rfl
  · obtain ⟨f, hf⟩ := driveIdu_fault_eq_one_iff.mp h
    exact iduDecode_ne_error v f hf

/-! ## Faults that end a run -/

/-- A fault leaves a run ended, and any number of further steps keeps it so (rules R128, R132). -/
theorem runFor_takeFault (n : Nat) (f : Fault) (s : State) : runFor n (takeFault f s) = .next (takeFault f s) :=
  runFor_of_ended n rfl

/-- What a run shows that ended on a fault: the lines it had, and the fault (rule R128). -/
theorem observe_takeFault (f : Fault) (s : State) :
    observe (takeFault f s) = some { lines := s.lines, outcome := .fatal f } :=
  observe_of_ended rfl

/-- Settles O33: the delivery takes the fault, which ends the run, and every word decodes. -/
theorem decodeFaultEndsTheRunForGood : Obligations.DecodeFaultEndsTheRunForGood := by
  refine ⟨fun s v f => ?_, iduDecode_ne_error⟩
  rw [deliver_error]
  refine ⟨observe_takeFault f s, rfl, fun n t h => ?_⟩
  obtain rfl := Host.Outcome.next.inj ((runFor_takeFault n f s).symm.trans h)
  exact observe_takeFault f s

/-- The first step of a run whose source cannot be opened takes the fault (rules R126, R143 item 1). -/
theorem step_start_unopenable (o : ByteOrder) (m : HostMode) (input : List Byte) :
    step (State.start o m false input) = .next (takeFault .inputUnopenable (State.start o m false input)) :=
  step_of_opening rfl

/-- Settles O31: the run ends at its first step, before any word. -/
theorem unopenableSourceIsFatalThree : Obligations.UnopenableSourceIsFatalThree :=
  fun o m input => ⟨1, _, runFor_succ_of_step (step_start_unopenable o m input), rfl, observe_takeFault _ _, rfl,
    Nat.succ_ne_zero _, rfl⟩

end Sys2Proof.Machine
end

