-- ==== Sys2Proof/Proofs/ResetRules.lean ====
section
/-! The obligations of 70_reset_and_hazards.md: the start of a run and its first word, the bound on its steps, and the
pairing of words and results in a realisation with registered outputs. -/

namespace Sys2Proof.Machine

variable {s s' : State} {n : Nat}

/-! ## The first word -/

theorem checkLength_of_lengthAdmitted (h : s.lengthAdmitted) : checkLength s = s.setPhase .decoding := by
  obtain ⟨hodd, hm, -⟩ | ⟨-, hc⟩ := checkLength_cases s
  · have heven : s.input.length % 2 = 0 := h hm
    omega
  · exact hc

/-- A run whose source opens and whose length is admitted presents words from its third step on (rule R143). -/
theorem runFor_start_of_lengthAdmitted {o : ByteOrder} {m : HostMode} {input : List Byte}
    (h : (State.start o m true input).lengthAdmitted) :
    runFor (n + 2) (State.start o m true input) = runFor n ((State.start o m true input).setPhase .decoding) := by
  rw [runFor_start_openable]
  exact congrArg (runFor n) (checkLength_of_lengthAdmitted (s := (State.start o m true input).setPhase .lengthCheck) h)

/-- Settles O36: the third step presents the pair at the front of the input. -/
theorem runStartsAtTheFirstTwoBytes : Obligations.RunStartsAtTheFirstTwoBytes := by
  refine ⟨fun _ _ _ _ => ⟨rfl, rfl⟩, ⟨rfl, rfl⟩, fun o m b0 b1 rest hrest => ?_⟩
  have hadm : (State.start o m true (b0 :: b1 :: rest)).lengthAdmitted := fun hm => by
    have heven := hrest hm
    simp only [State.start, List.length_cons]
    omega
  have hpair : readPair ((State.start o m true (b0 :: b1 :: rest)).setPhase .decoding) = some (b0, b1) :=
    readPair_eq_some.mpr ⟨rest, rfl⟩
  have hrun := (runFor_start_of_lengthAdmitted (n := 1) hadm).trans
    (runFor_succ_of_step (step_of_readPair rfl hpair))
  exact ⟨3, _, hrun, rfl, rfl⟩

/-! ## The bound on the steps of a run -/

/-- After `n` steps the run from `s` has ended, and its index has passed no more than the words of the stream. -/
def State.EndsAfter (n : Nat) (s : State) : Prop :=
  ∃ t o, runFor n s = .next t ∧ t.phase = .ended o ∧ t.k ≤ max s.k (s.input.length / 2)

theorem endsAfter_of_ended (n : Nat) {o : RunOutcome} (hp : s.phase = .ended o) : s.EndsAfter n :=
  ⟨s, o, runFor_of_ended n hp, hp, le_max_left ..⟩

/-- A step that moves the run to another phase leaves the rest of the bound to the steps after it. -/
theorem endsAfter_succ_of_setPhase {p : Phase} (hs : step s = .next (s.setPhase p))
    (h : (s.setPhase p).EndsAfter n) : s.EndsAfter (n + 1) := by
  obtain ⟨t, o, hrun, hp, hk⟩ := h
  exact ⟨t, o, (runFor_succ_of_step hs).trans hrun, hp, hk⟩

/-- A pair that is read lies within the stream (rule R45). -/
theorem le_length_of_readPair {b0 b1 : Byte} (hr : readPair s = some (b0, b1)) : 2 * s.k + 2 ≤ s.input.length := by
  refine Nat.le_of_not_lt fun hlt => ?_
  cases hr.symm.trans (readPair_eq_none.mpr hlt)

/-- A word is taken only from within the stream, so the index stays in its bound. -/
theorem endsAfter_succ_of_readPair {b0 b1 : Byte} (hp : s.phase = .decoding) (hr : readPair s = some (b0, b1))
    (h : ((s.emit (expectedLines (assemble s.byteOrder b0 b1))).advance).EndsAfter n) : s.EndsAfter (n + 1) := by
  obtain ⟨t, o, hrun, hended, hk⟩ := h
  have hpair := le_length_of_readPair hr
  simp only [advance_k, emit_k, advance_input, emit_input] at hk
  exact ⟨t, o, (runFor_succ_of_step (step_of_readPair hp hr)).trans hrun, hended, by omega⟩

/-- While words are presented, one step for each undecoded word and one more end the run, by induction on the steps. -/
theorem endsAfter_of_decoding (hp : s.phase = .decoding) (hn : s.input.length / 2 - s.k < n) : s.EndsAfter n := by
  induction n generalizing s with
  | zero => omega
  | succ n ih =>
    match hr : readPair s with
    | none => exact endsAfter_succ_of_setPhase (step_of_end hp hr) (endsAfter_of_ended n rfl)
    | some (b0, b1) =>
      have hpair := le_length_of_readPair hr
      refine endsAfter_succ_of_readPair hp hr (ih (by simpa using hp) ?_)
      simp only [advance_k, emit_k, advance_input, emit_input]
      omega

theorem endsAfter_of_lengthCheck (hp : s.phase = .lengthCheck) (hn : s.input.length / 2 - s.k < n) :
    s.EndsAfter (n + 1) := by
  have hs := step_of_lengthCheck hp
  obtain ⟨-, -, hc⟩ | ⟨-, hc⟩ := checkLength_cases s
  · exact endsAfter_succ_of_setPhase (hs.trans (congrArg _ hc)) (endsAfter_of_ended n rfl)
  · exact endsAfter_succ_of_setPhase (hs.trans (congrArg _ hc)) (endsAfter_of_decoding rfl hn)

theorem endsAfter_of_opening (hp : s.phase = .opening) (hn : s.input.length / 2 - s.k < n) :
    s.EndsAfter (n + 2) := by
  have hs := step_of_opening hp
  obtain ⟨-, ho⟩ | ⟨-, ho⟩ := openSource_cases s
  · exact endsAfter_succ_of_setPhase (hs.trans (congrArg _ ho)) (endsAfter_of_lengthCheck rfl hn)
  · exact endsAfter_succ_of_setPhase (hs.trans (congrArg _ ho)) (endsAfter_of_ended _ rfl)

/-- Settles O43: each phase has its own bound, and all are within that of a run whose source is not opened yet. -/
theorem everyRunEndsInBoundedSteps : Obligations.EveryRunEndsInBoundedSteps := by
  intro s
  match hp : s.phase with
  | .opening => exact endsAfter_of_opening hp (Nat.lt_succ_self _)
  | .lengthCheck => exact endsAfter_of_lengthCheck hp (by omega)
  | .decoding => exact endsAfter_of_decoding hp (by omega)
  | .ended _ => exact endsAfter_of_ended _ hp

/-! ## Registered outputs -/

/-- What goes into a delay line in a cycle: the word beside its result, if a word is presented (rule R145). -/
def pipeEntry (inp : Option Word) : Option (Word × IduPorts) := inp.map fun v => (v, iduOutputs v)

theorem clockPipe_nil (inp : Option Word) : clockPipe ⟨[]⟩ inp = (pipeEntry inp, ⟨[]⟩) := rfl

theorem clockPipe_cons (out : Option (Word × IduPorts)) (q : List (Option (Word × IduPorts))) (inp : Option Word) :
    clockPipe ⟨out :: q⟩ inp = (out, ⟨q ++ [pipeEntry inp]⟩) := rfl

/-- A delay line is a queue: what comes out is what is in it and then what goes in, an entry for each cycle. -/
theorem drivePipe_eq_take (q : List (Option (Word × IduPorts))) (xs : List (Option Word)) :
    drivePipe ⟨q⟩ xs = (q ++ xs.map pipeEntry).take xs.length := by
  induction xs generalizing q with
  | nil => rfl
  | cons x xs ih =>
    cases q with
    | nil => simp [drivePipe, clockPipe_nil, ih]
    | cons out q => simp [drivePipe, clockPipe_cons, ih]

/-- Settles O46: the queue holds `n` empty cycles, and of what goes in all but the last `n` cycles come out. -/
theorem registeredOutputsPairEachWordWithItsResult : Obligations.RegisteredOutputsPairEachWordWithItsResult := by
  intro n ws
  have hentries : (ws.map some).map pipeEntry = ws.map fun v => some (v, iduOutputs v) := List.map_map
  rw [Pipe.empty, drivePipe_eq_take, List.map_append, hentries, ← List.append_assoc]
  exact List.take_left' (by simp [Nat.add_comm])

end Sys2Proof.Machine
end

