-- ==== Sys2Proof/Proofs/SpecWords.lean ====
section
/-! The words of the spec's test vectors (95_test_vectors.md), decoded to their fields. -/

namespace Sys2Proof.Machine

/-- A word decodes to the instruction that encodes to it and to no other (rules R61, R62). -/
theorem decodeWord_eq_iff {v : Word} {i : Instr} : decodeWord v = i ↔ encodeWord i = v :=
  ⟨fun h => h ▸ encodeWord_decodeWord v, fun h => h ▸ decodeWord_encodeWord i⟩

/-- Settles O6: the fields of each vector, put together, are its word. -/
theorem specWordsDecodeToTheirFields : Obligations.SpecWordsDecodeToTheirFields := by
  unfold Obligations.SpecWordsDecodeToTheirFields
  simp only [decodeWord_eq_iff]
  decide

end Sys2Proof.Machine
end
